-- ==== Sys2Proof/Word.lean ====
section
/-! DEFINITION. The word types of OCA and its four widths (spec/00_scope.md R3, R8, R9; spec/40_adder.md R110). -/

namespace Sys2Proof

/-- The addressable unit (R8: `BYTE` = 8). -/
abbrev Byte := BitVec 8

/-- An operand slot, and the response value (R8: `DW` = 64). -/
abbrev Slot := BitVec 64

/-- An address while it is computed (R8, D1: `AW` = 64, unsigned). -/
abbrev Addr := BitVec 64

/-- The supported operand widths `W` (R3: "exactly 8, 16, 32 and 64 bits"); also the sizes of a store
transaction, whose `n` in 1, 2, 4, 8 is `N(W)` (R42). -/
inductive Width where
  | w8
  | w16
  | w32
  | w64
deriving DecidableEq, Repr

/-- `W` in bits (R110). -/
def Width.bits : Width → Nat
  | .w8 => 8
  | .w16 => 16
  | .w32 => 32
  | .w64 => 64

/-- `N(W) = W/8`, the bytes of a `W`-bit value (R9, R110). -/
def Width.bytes : Width → Nat
  | .w8 => 1
  | .w16 => 2
  | .w32 => 4
  | .w64 => 8

end Sys2Proof
end

