-- ==== Sys2Proof/Machine/Operands.lean ====
section
/-! DEFINITION. Every operand form (spec/30_encoding.md R73) and the address arithmetic (spec/20_memory.md R51). There
is no sign extension, scaling or shift; every operand is unsigned. -/

namespace Sys2Proof.Machine

/-- `left` = `a[W-1:0]` and `right` = `b[W-1:0]`; the bits above are ignored (R73, D12, C6). -/
def lowBits (w : Width) (slot : Slot) : BitVec w.bits := slot.setWidth w.bits

/-- The effective carry-in is `c[0]` and nothing else (R73, R141, C1). -/
def carryIn (c : Slot) : Bool := c.getLsbD 0

/-- The flag address of UADDO: `(addr + c) mod 2^64` (R51, R120). -/
def flagAddr (addr : Addr) (c : Slot) : Addr := addr + c

/-- Byte `k` from an address: `(A + k) mod 2^64` (R44, R51). -/
def byteAddr (A : Addr) (k : Nat) : Addr := A + BitVec.ofNat 64 k

/-- Byte `k` of a value: `v[8k+7 : 8k]` (R44, little-endian, D2; DEDUCED: log entry 16). -/
def byteOf (v : BitVec 64) (k : Nat) : Byte := v.extractLsb' (8 * k) 8

/-- The size of the carry-out store of UADDC.W: width-sized, `N(W)` bytes (R149, D3, C8; DEDUCED: log
entry 16). -/
def carryOutSize (w : Width) : Width := w

end Sys2Proof.Machine
end

