-- ==== Sys2Proof/Machine/Flags.lean ====
section
/-! DEFINITION. The overflow-checked adder: the pure functions ADDO and ADDC and the three forms of the overflow test
(spec/40_adder.md R100 to R108). OCA has no flag register (spec/10_state.md R23): overflow is a result. -/

namespace Sys2Proof.Machine

/-- `ADDO_W(l, r)` (R101): the sum modulo `2^W`, and whether the exact sum is at least `2^W`. -/
def addo {w : Width} (l r : BitVec w.bits) : BitVec w.bits × Bool :=
  (l + r, decide (2 ^ w.bits ≤ l.toNat + r.toNat))

/-- The wider-accumulator form of the overflow test (R102): bit `W` of the sum held in `W+1` bits. -/
def ovfWide {w : Width} (l r : BitVec w.bits) : Bool :=
  (l.setWidth (w.bits + 1) + r.setWidth (w.bits + 1)).getLsbD w.bits

/-- The word `m` of the same-width bit-trick (R103): `(~sum & l) | (~sum & r) | (l & r)`. -/
def ovfTrickWord {w : Width} (l r : BitVec w.bits) : BitVec w.bits :=
  (~~~(l + r) &&& l) ||| (~~~(l + r) &&& r) ||| (l &&& r)

/-- The same-width bit-trick form of the overflow test (R103): bit `W-1` of `m`. -/
def ovfTrick {w : Width} (l r : BitVec w.bits) : Bool :=
  (ovfTrickWord l r).getLsbD (w.bits - 1)

/-- A carry as a `W`-bit operand: 0 or 1. -/
def carryOperand (w : Width) (cin : Bool) : BitVec w.bits := (BitVec.ofBool cin).setWidth w.bits

/-- `ADDC_W(l, r, cin)` (R106): two ADDO steps, the overflow of either. -/
def addc {w : Width} (l r : BitVec w.bits) (cin : Bool) : BitVec w.bits × Bool :=
  let first := addo l r
  let second := addo first.1 (carryOperand w cin)
  (second.1, first.2 || second.2)

/-- `ovf` as a number, 0 or 1, zero-extended to the size it is stored with (R48). -/
def ovfValue (ovf : Bool) : BitVec 64 := (BitVec.ofBool ovf).setWidth 64

end Sys2Proof.Machine
end

