-- ==== Sys2Proof/Config.lean ====
section
/-! DEFINITION. What the platform around OCA fixes, and the values the spec leaves free (spec/00_scope.md R8;
spec/20_memory.md R43; spec/70_reset_and_hazards.md R201). The free values are opaque: no proof can see them. -/

namespace Sys2Proof

/-- `mem0`, the memory contents when the first command is issued (R8, R29, D21: OPEN, "any function from
addresses to bytes"). DESIGN CHOICE: log entry 1. -/
opaque Config.mem0 : Nat → Byte

/-- The error code `e` of a refusal, which is "a free choice of the memory subsystem" (R43, U9): the code of the
`n`-th draw, where the platform's own list `State.codes` names none. DESIGN CHOICE: log entry 3. -/
opaque Config.refusalCode : Nat → Byte

/-- Whether a byte of an unanswered store has landed when reset arrives (R201: "either performed or not, and this
spec does not say which"; U8): the answer of the `n`-th draw. DESIGN CHOICE: log entry 4. -/
opaque Config.landed : Nat → Bool

/-- `AW` (R8, D1): addresses run from 0 to `2^AW - 1`. -/
def Config.addressBits : Nat := 64

end Sys2Proof
end

