-- ==== Sys2Proof/Syntax.lean ====
section
/-! DEFINITION. The command descriptor (spec/30_encoding.md R71) and the nine commands (R74) as syntax. A command
carries its four 64-bit slots as the descriptor holds them; which bits of a slot an operand takes (R73) is
Machine/Operands.lean's. -/

namespace Sys2Proof

/-- The five fields of a command descriptor (R71), of which OCA keeps a private copy while BUSY (R21). -/
structure Descriptor where
  /-- `cmd`, the command code -/
  cmd : BitVec 8
  /-- slot a: `left` (UADDO, UADDC), `length` (ZFILL) -/
  a : Slot
  /-- slot b: `right` (UADDO, UADDC), ignored (ZFILL) -/
  b : Slot
  /-- slot c: `flag_offset` (UADDO), `carry_in` (UADDC), ignored (ZFILL) -/
  c : Slot
  /-- slot addr: `target_address` (UADDO), `carry_out_address` (UADDC), `address` (ZFILL) -/
  addr : Addr
deriving DecidableEq, Repr

/-- The nine commands of R74, one constructor for each row of spec/opcode_table.json. -/
inductive Instr where
  /-- UADDO.8 (R121) -/
  | uaddo8 (a b c : Slot) (addr : Addr)
  /-- UADDO.16 (R122) -/
  | uaddo16 (a b c : Slot) (addr : Addr)
  /-- UADDO.32 (R123) -/
  | uaddo32 (a b c : Slot) (addr : Addr)
  /-- UADDO.64 (R124) -/
  | uaddo64 (a b c : Slot) (addr : Addr)
  /-- UADDC.8 (R142) -/
  | uaddc8 (a b c : Slot) (addr : Addr)
  /-- UADDC.16 (R143) -/
  | uaddc16 (a b c : Slot) (addr : Addr)
  /-- UADDC.32 (R144) -/
  | uaddc32 (a b c : Slot) (addr : Addr)
  /-- UADDC.64 (R145) -/
  | uaddc64 (a b c : Slot) (addr : Addr)
  /-- ZFILL (R160) -/
  | zfill (a b c : Slot) (addr : Addr)
deriving DecidableEq, Repr

end Sys2Proof
end

