-- ==== Sys2Proof/WellFormed.lean ====
section
/-! DEFINITION. A command is well formed when the assembler of spec/30_encoding.md R80 can have written it: its
operands fit their width and every ignored bit (R73) is 0. OCA itself rejects none of the others (R73, R173). -/

namespace Sys2Proof

/-- `left` or `right` fits in `W` bits (R80: the assembler "rejects a `left` or `right` that does not fit in `W`
bits"; with it the ignored bits `a[63:W]`, `b[63:W]` of R73 are 0). -/
def operandFits (w : Width) (slot : Slot) : Bool := decide (slot.toNat < 2 ^ w.bits)

/-- The ignored bits `c[63:1]` of a UADDC command (R73) are 0. -/
def carryFits (c : Slot) : Bool := decide (c.toNat < 2)

/-- What R80 lets the assembler write. -/
def Instr.wellFormed : Instr → Bool
  | .uaddo8 a b _ _ => operandFits .w8 a && operandFits .w8 b
  | .uaddo16 a b _ _ => operandFits .w16 a && operandFits .w16 b
  | .uaddo32 a b _ _ => operandFits .w32 a && operandFits .w32 b
  | .uaddo64 a b _ _ => operandFits .w64 a && operandFits .w64 b
  | .uaddc8 a b c _ => operandFits .w8 a && operandFits .w8 b && carryFits c
  | .uaddc16 a b c _ => operandFits .w16 a && operandFits .w16 b && carryFits c
  | .uaddc32 a b c _ => operandFits .w32 a && operandFits .w32 b && carryFits c
  | .uaddc64 a b c _ => operandFits .w64 a && operandFits .w64 b && carryFits c
  | .zfill _ b c _ => b == 0 && c == 0

end Sys2Proof
end

