-- ==== Sys2Proof/Decode.lean ====
section
/-! DEFINITION. The descriptor's layout (spec/30_encoding.md R71), the decoder of `cmd` (R72, R74, R76), total on
every 264-bit descriptor, and after it the encoder. (The response's 74-bit layout, R77, is in Machine/Response.lean.) -/

namespace Sys2Proof

/-- The five fields of a 264-bit descriptor (R71): `cmd` [7:0], `a` [71:8], `b` [135:72], `c` [199:136],
`addr` [263:200]. -/
def Descriptor.ofBits (D : BitVec 264) : Descriptor where
  cmd := D.extractLsb' 0 8
  a := D.extractLsb' 8 64
  b := D.extractLsb' 72 64
  c := D.extractLsb' 136 64
  addr := D.extractLsb' 200 64

/-- The descriptor as a 264-bit number: `D = cmd + a * 2^8 + b * 2^72 + c * 2^136 + addr * 2^200` (R71). -/
def Descriptor.toBits (d : Descriptor) : BitVec 264 :=
  d.addr ++ d.c ++ d.b ++ d.a ++ d.cmd

/-- `fam = cmd[7:4]` (R72). -/
def cmdFamily (cmd : BitVec 8) : BitVec 4 := cmd.extractLsb' 4 4

/-- `rsv = cmd[3:2]` (R72). -/
def cmdReserved (cmd : BitVec 8) : BitVec 2 := cmd.extractLsb' 2 2

/-- `wc = cmd[1:0]` (R72). -/
def cmdWidthCode (cmd : BitVec 8) : BitVec 2 := cmd.extractLsb' 0 2

/-- `W = 8 * 2^wc` (R72). -/
def widthOfCode (wc : BitVec 2) : Width :=
  match wc.toNat with
  | 0 => .w8
  | 1 => .w16
  | 2 => .w32
  | _ => .w64

/-- UADDO.W, the command of the store form for each width (R4, R120). -/
def Instr.uaddo : Width → Slot → Slot → Slot → Addr → Instr
  | .w8 => .uaddo8
  | .w16 => .uaddo16
  | .w32 => .uaddo32
  | .w64 => .uaddo64

/-- UADDC.W, the command of the carry-chain form for each width (R4, R140). -/
def Instr.uaddc : Width → Slot → Slot → Slot → Addr → Instr
  | .w8 => .uaddc8
  | .w16 => .uaddc16
  | .w32 => .uaddc32
  | .w64 => .uaddc64

/-- Why a command code is reserved: the three groups of R76. -/
inductive ReservedKind where
  /-- `fam` is not 1, 2 or 3 -/
  | unknownFamily
  /-- codes 0x14 to 0x1F and 0x24 to 0x2F: `rsv` is not 00 -/
  | reservedBits
  /-- codes 0x31 to 0x3F: family 3 with a non-zero low nibble -/
  | zfillNibble
deriving DecidableEq, Repr

/-- What the decoder reads from a descriptor: a command, or a rejection by name. -/
inductive Decoded where
  | instr (i : Instr)
  | reserved (why : ReservedKind) (cmd : BitVec 8)
deriving DecidableEq, Repr

/-- The command, where the decoder reads one. -/
def Decoded.toOption : Decoded → Option Instr
  | .instr i => some i
  | .reserved _ _ => none

/-- The decoder (R72, R74, R76). It looks at `cmd` only; every slot value is legal (R73). -/
def decode (d : Descriptor) : Decoded :=
  if cmdFamily d.cmd = 1 then
    if cmdReserved d.cmd = 0 then .instr (Instr.uaddo (widthOfCode (cmdWidthCode d.cmd)) d.a d.b d.c d.addr)
    else .reserved .reservedBits d.cmd
  else if cmdFamily d.cmd = 2 then
    if cmdReserved d.cmd = 0 then .instr (Instr.uaddc (widthOfCode (cmdWidthCode d.cmd)) d.a d.b d.c d.addr)
    else .reserved .reservedBits d.cmd
  else if cmdFamily d.cmd = 3 then
    if cmdReserved d.cmd = 0 ∧ cmdWidthCode d.cmd = 0 then .instr (.zfill d.a d.b d.c d.addr)
    else .reserved .zfillNibble d.cmd
  else .reserved .unknownFamily d.cmd

/-- The decoder on the 264 bits of the request port. -/
def decodeBits (D : BitVec 264) : Decoded := decode (Descriptor.ofBits D)

/-- The descriptor of each command, its code as the table of R74 gives it. -/
def Instr.descriptor : Instr → Descriptor
  | .uaddo8 a b c addr => ⟨0x10, a, b, c, addr⟩
  | .uaddo16 a b c addr => ⟨0x11, a, b, c, addr⟩
  | .uaddo32 a b c addr => ⟨0x12, a, b, c, addr⟩
  | .uaddo64 a b c addr => ⟨0x13, a, b, c, addr⟩
  | .uaddc8 a b c addr => ⟨0x20, a, b, c, addr⟩
  | .uaddc16 a b c addr => ⟨0x21, a, b, c, addr⟩
  | .uaddc32 a b c addr => ⟨0x22, a, b, c, addr⟩
  | .uaddc64 a b c addr => ⟨0x23, a, b, c, addr⟩
  | .zfill a b c addr => ⟨0x30, a, b, c, addr⟩

/-- The encoder: the 264 bits of a command (R71, R74). -/
def encode (i : Instr) : BitVec 264 := i.descriptor.toBits

/-- The host's entry: the instruction read from the table word `w` of `nbits` bits, the bits above `nbits` zero.
A descriptor is one word of 264 bits whose bit 0 is the table's bit 0. -/
def decodeTableWord (nbits w : Nat) : Option Instr :=
  (decodeBits (BitVec.ofNat 264 (w % 2 ^ nbits))).toOption

end Sys2Proof
end

