-- ==== Sys2Proof/Machine/State.lean ====
section
/-! DEFINITION. The state of one OCA instance, the memory it writes and the agents around it (spec/10_state.md R20 to
R29; spec/20_memory.md R42; spec/30_encoding.md R70, R77), as plain data, and the state at launch. -/

namespace Sys2Proof.Machine

/-- Memory: the bytes written since launch, as (address, byte) pairs, addresses strictly rising. An address not
listed has no byte of its own here: it still holds what it held at launch (`State.byteAt`, R26, R29; DESIGN CHOICE: log entry 1). -/
abbrev Memory := List Host.Cell

/-- A store transaction `ST(n, A, v)` (R42): `n = size.bytes`, and `v` is the low `8n` bits of `value`. -/
structure Txn where
  size : Width
  addr : Addr
  value : BitVec 64
deriving DecidableEq, Repr

/-- The memory port with a transaction issued and awaiting its answer (R42), and the numbers of those of its bytes
that the memory has already taken: a multi-byte store is not single-copy atomic (R49). -/
structure Pending where
  txn : Txn
  landed : List Nat
deriving DecidableEq, Repr

/-- A command in flight (R27): the private copy of its descriptor (R21) and how many of its store transactions have
been performed (R52: memory has taken every byte of them, answered or not). -/
structure InFlight where
  desc : Descriptor
  done : Nat
deriving DecidableEq, Repr

/-- The `status` field of a response (R77, R170); the code 3 is never produced (U10). -/
inductive Status where
  /-- 0: no fault -/
  | ok
  /-- 1: the memory subsystem refused a store transaction of the command (R171) -/
  | memfault
  /-- 2: the descriptor's `cmd` is a reserved code (R172) -/
  | ill
deriving DecidableEq, Repr

/-- A response (R77, R78). -/
structure Response where
  status : Status
  value : BitVec 64
  merr : BitVec 8
deriving DecidableEq, Repr

/-- A move of the scheduler or of an agent other than the instance (R54, R181, R201): which agent moves next is
plain data (DESIGN CHOICE: log entry 5). -/
inductive Move where
  /-- the instance makes `n` moves of its command (each a transaction answered, or the response), then pauses -/
  | run (n : Nat)
  /-- the host presents a descriptor with `valid` on the request port (R70) -/
  | present (D : BitVec 264)
  /-- the host takes the response (R77) -/
  | take
  /-- the host, another instance or another writer stores `8 * size.bytes` bits in memory by its own means (R181,
  and HOSTWRITE of R11) -/
  | write (size : Width) (addr : Addr) (value : BitVec 64)
  /-- byte `k` of the transaction awaiting its answer is taken by the memory ahead of the others (R49) -/
  | land (k : Nat)
  /-- the reset input is asserted (R200, R201) -/
  | reset
deriving DecidableEq, Repr

/-- The state (R28) with its ports and the parameters of the step relation (R8) as plain data. -/
structure State where
  /-- memory (R26) -/
  mem : Memory
  /-- BUSY with a command and its progress, or IDLE (R27) -/
  inflight : Option InFlight
  /-- the request port: the descriptor presented with `valid`, not yet accepted (R70; DESIGN CHOICE: log entry 7) -/
  request : Option (BitVec 264)
  /-- the response port: the response sent and not yet taken (R77; DESIGN CHOICE: log entry 8) -/
  response : Option Response
  /-- the memory port: the transaction awaiting its answer (R42) -/
  port : Option Pending
  /-- the launch parameter `admit` (R43): the pairs (A, n) for which `admit(A, n)` is false (DESIGN CHOICE: log entry 2) -/
  refusing : List (Nat × Nat)
  /-- the error codes the memory subsystem chooses for its coming refusals, oldest first (R42, R43; DESIGN CHOICE:
  log entry 3) -/
  codes : List Byte
  /-- the model's own: how many free values have been drawn (DESIGN CHOICE: log entries 3 and 4) -/
  draws : Nat
  /-- the model's own: the coming moves of the scheduler and of the other agents (DESIGN CHOICE: log entry 5) -/
  agenda : List Move
  /-- the model's own: the sticky fault mark of 93_implementation_defined.md U2 (DESIGN CHOICE: log entry 6) -/
  faultSeen : Bool
deriving DecidableEq, Repr

/-- Reasons for which the machine stops with a fault: NONE. OCA reports its two faults in the response and is IDLE
again (R170, R175, R176); every 64-bit address exists (R50); OCA reads no memory (R41). DESIGN CHOICE: log entry 14. -/
inductive Fault where
deriving DecidableEq, Repr

/-- Reasons for which the model gives a step no meaning. -/
inductive Refusal where
  /-- An instruction of the table that has no meaning yet. No arm of `exec` raises it: all nine commands are
  modelled. It would be safe. -/
  | notModelled (mnemonic : String)
deriving DecidableEq, Repr

/-- The launch state (R29, R204): the instance IDLE, no response pending, no transaction awaiting an answer, memory
as `mem0` left it (nothing listed). What the spec leaves open is DESIGN CHOICE, as log entries 2, 3, 5, 6 and 7 say: `admit` true
everywhere, no code named, no move to come, nothing presented by the host. -/
def State.reset : State where
  mem := []
  inflight := none
  request := none
  response := none
  port := none
  refusing := []
  codes := []
  draws := 0
  agenda := []
  faultSeen := false

end Sys2Proof.Machine
end

