-- ==== Sys2Proof/Machine/Memory.lean ====
section
/-! DEFINITION. The operations on memory as a list of cells (spec/20_memory.md R44, R45), its canonical form, and the
little-endian store (R44, R46). -/

namespace Sys2Proof.Machine

/-- The byte written at an address since launch; none where nothing has been written. -/
def Memory.lookup : Memory → Nat → Option Byte
  | [], _ => none
  | (b, v) :: m, a => if a = b then some v else Memory.lookup m a

/-- Write one byte, keeping the cells in rising order of address. -/
def Memory.write : Memory → Nat → Byte → Memory
  | [], a, v => [(a, v)]
  | (b, u) :: m, a, v =>
    if a < b then (a, v) :: (b, u) :: m
    else if a = b then (a, v) :: m
    else (b, u) :: Memory.write m a v

/-- Every cell's address is at least `lo`, below `2^64`, and the addresses rise strictly. -/
def Memory.risesFrom : Nat → Memory → Bool
  | _, [] => true
  | lo, (a, _) :: m => decide (lo ≤ a) && decide (a < 2 ^ Config.addressBits) && Memory.risesFrom (a + 1) m

/-- The canonical form: addresses of the space `[0, 2^AW)` (R26), strictly rising. -/
def Memory.wf (m : Memory) : Bool := Memory.risesFrom 0 m

/-- The effect of an accepted store on memory (R44): for `k` below `n`, byte `k` of `v` at `(A + k) mod 2^64`, but for
the bytes the memory has taken already (`skip`, R49). -/
def Memory.storeBytes (skip : List Nat) (A : Addr) (v : BitVec 64) : Nat → Memory → Memory
  | 0, m => m
  | n + 1, m =>
    if skip.contains n then Memory.storeBytes skip A v n m
    else (Memory.storeBytes skip A v n m).write (byteAddr A n).toNat (byteOf v n)

/-- An unanswered store cut short by reset (R201, U8): each byte not yet taken has landed or not, as the free value
`Config.landed` of its own draw says (DESIGN CHOICE: log entry 4). -/
def Memory.landBytes (skip : List Nat) (A : Addr) (v : BitVec 64) (draw : Nat) : Nat → Memory → Memory
  | 0, m => m
  | n + 1, m =>
    if Config.landed (draw + n) && !skip.contains n then
      (Memory.landBytes skip A v draw n m).write (byteAddr A n).toNat (byteOf v n)
    else Memory.landBytes skip A v draw n m

/-- What a read of one byte returns (R45, R54): the latest write to it, or `mem0` if there is none (DESIGN CHOICE: log entry 1). OCA itself never
reads (R41): this is the host's read, used in statements. -/
def State.byteAt (s : State) (x : Addr) : Byte := (s.mem.lookup x.toNat).getD (Config.mem0 x.toNat)

/-- `MemRead(A, n)` (R45), zero-extended to 64 bits: byte `k` of the result is the byte at `(A + k) mod 2^64`. -/
def State.memRead (s : State) (A : Addr) : Nat → BitVec 64
  | 0 => 0
  | n + 1 => s.memRead A n ||| ((s.byteAt (byteAddr A n)).setWidth 64 <<< (8 * n))

end Sys2Proof.Machine
end

