-- ==== Sys2Proof/Machine/Ops.lean ====
section
/-! DEFINITION. The shared operations of the instance and of the agents around it: admission (spec/20_memory.md R43),
one transaction (R42, R52), raising a fault (spec/60_exceptions.md R171, R172), the response (spec/30_encoding.md R77), running
a command (R53, R70), reset (spec/70_reset_and_hazards.md R200, R201) and the moves of the other agents (R54, R181). -/

namespace Sys2Proof.Machine

/-- The instance indicates `ready` exactly when it is IDLE (R70). -/
def State.ready (s : State) : Bool := s.inflight.isNone

/-- `admit(A, n)` (R43): the memory subsystem's verdict, a launch parameter (DESIGN CHOICE: log entry 2). -/
def State.admits (s : State) (A : Addr) (n : Width) : Bool := !s.refusing.contains (A.toNat, n.bytes)

/-- The error code of the next refusal (R43, U9): the platform's, or a free value (DESIGN CHOICE: log entry 3). -/
def State.nextCode (s : State) : Byte :=
  match s.codes with
  | e :: _ => e
  | [] => Config.refusalCode s.draws

/-- The code has been used: the next refusal has another. -/
def State.useCode (s : State) : State :=
  match s.codes with
  | _ :: es => { s with codes := es }
  | [] => { s with draws := s.draws + 1 }

/-- Memory has taken every byte of the transaction awaiting its answer: it has been performed (R52). -/
def Pending.whole (p : Pending) : Bool := (List.range p.txn.size.bytes).all p.landed.contains

/-- How many of the transactions performed await their answer: 1 or 0 (R42, R52). -/
def performedAhead : Option Pending → Nat
  | some p => p.whole.toNat
  | none => 0

/-- The store transactions of the command in flight already answered: the `done` performed ones (R27), but for the one that
awaits its answer; 0 for a command just beginning. -/
def State.answered (s : State) : Nat :=
  match s.inflight with
  | some f => f.done - performedAhead s.port
  | none => 0

/-- The bytes of the transaction awaiting its answer that the memory has taken (R49). -/
def State.landed (s : State) : List Nat :=
  match s.port with
  | some p => p.landed
  | none => []

/-- How many moves the instance makes before another agent moves; none where it is undisturbed until it responds (DESIGN
CHOICE: log entry 5). -/
def State.quota (s : State) : Option Nat :=
  match s.agenda with
  | .run n :: _ => some n
  | _ => none

/-- The instance's turn on the agenda is over. -/
def State.endTurn (s : State) : State :=
  match s.agenda with
  | .run _ :: rest => { s with agenda := rest }
  | _ => s

/-- An accepted transaction is performed (R44, R52). -/
def State.perform (t : Txn) (s : State) : State :=
  { s with mem := Memory.storeBytes s.landed t.addr t.value t.size.bytes s.mem, port := none }

/-- The one response of a command, after which the instance is IDLE (R77, R175). The fault mark is the model's own
(U2; DESIGN CHOICE: log entry 6). -/
def State.respond (r : Response) (s : State) : State :=
  { s with
    inflight := none
    port := none
    response := some r
    faultSeen := s.faultSeen || r.status == .memfault }

/-- `raise MemFault(A, e)` (R171): no further transaction, no rollback; the response carries the refused address and the
subsystem's code, unmodified. -/
def State.raiseMemFault (A : Addr) (s : State) : State :=
  s.useCode.respond ⟨.memfault, A, s.nextCode⟩

/-- What `raise IllegalCommand(c)` responds (R172): ILL, `zext_64(cmd)`, 0. -/
def illegalResponse (cmd : BitVec 8) : Response := ⟨.ill, cmd.setWidth 64, 0⟩

/-- A command as OCA carries it out (R48, R53): its store transactions in order, and its response when all of them have
been accepted. -/
structure Plan where
  desc : Descriptor
  count : Nat
  txn : Nat → Txn
  final : Response

/-- The plan of a reserved code (R172): no transaction, the ILL response. -/
def illegalPlan (d : Descriptor) : Plan where
  desc := d
  count := 0
  txn := fun _ => ⟨.w8, 0, 0⟩
  final := illegalResponse d.cmd

/-- The transaction that awaits its answer once `k` of the plan's have been answered: the next one is issued at once, where
R42 says only that it is not issued sooner (DESIGN CHOICE: log entry 18); `landed` are its bytes taken ahead (R49). -/
def Plan.pendingAt (p : Plan) (k : Nat) (landed : List Nat) : Option Pending :=
  if k < p.count then some ⟨p.txn k, landed⟩ else none

/-- The instance pauses, BUSY, with `k` transactions answered and the next one issued (DESIGN CHOICE: log entry 18); `done`
counts those performed, the pending one too where memory has taken all of it (R27, R52). -/
def State.pause (p : Plan) (k : Nat) (s : State) : State :=
  { s with
    inflight := some ⟨p.desc, k + performedAhead (p.pendingAt k s.landed)⟩
    port := p.pendingAt k s.landed }

/-- Up to `n` moves of a command with `k` transactions answered: the next transaction is issued and answered, and on a
refusal the command ends (R42, R171, R174); after the last one it responds (R52). -/
def State.advance (p : Plan) : Nat → Nat → State → State
  | 0, k, s => s.pause p k
  | n + 1, k, s =>
    if k < p.count then
      if s.admits (p.txn k).addr (p.txn k).size then State.advance p n (k + 1) (s.perform (p.txn k))
      else s.raiseMemFault (p.txn k).addr
    else s.respond p.final

/-- The moves the instance makes now: the agenda's number, or all that its command still needs (each transaction, then the
response). -/
def State.fuel (p : Plan) (s : State) : Nat :=
  match s.quota with
  | some n => n
  | none => p.count - s.answered + 1

/-- Carry out a command from where it stands (R53, R70; DESIGN CHOICE: log entry 13). -/
def State.runPlan (p : Plan) (s : State) : State :=
  s.endTurn.advance p (s.fuel p) s.answered

/-- A command is accepted (R70): `valid` and `ready` hold together; the descriptor is copied (R21) and the instance is
BUSY. No response of an earlier command stands on the port from now on (DESIGN CHOICE: log entry 8). -/
def State.accept (D : BitVec 264) (s : State) : State :=
  { s with
    inflight := some ⟨Descriptor.ofBits D, 0⟩
    request := none
    response := none
    port := none }

/-- Reset with a transaction awaiting its answer (R201): performed or not, byte by byte, if the memory subsystem accepts
it; a refused one changes no byte (R43). DESIGN CHOICE: log entry 4 (and 18 for when a transaction is issued). -/
def State.settlePort (s : State) : State :=
  match s.port with
  | some p =>
    if s.admits p.txn.addr p.txn.size then
      { s with
        mem := Memory.landBytes p.landed p.txn.addr p.txn.value s.draws p.txn.size.bytes s.mem
        draws := s.draws + p.txn.size.bytes }
    else s
  | none => s

/-- The reset input (R29, R200, R201): the instance IDLE with nothing in flight, no response, no transaction pending;
memory is not touched but for the unanswered transaction. -/
def State.resetInput (s : State) : State :=
  { s.settlePort with inflight := none, port := none, response := none }

/-- The memory takes byte `k` of the transaction awaiting its answer ahead of the others (R49), if it accepts it (DESIGN
CHOICE: log entry 5). With its last byte the transaction has been performed, and `done` counts it (R27, R52). -/
def State.landByte (k : Nat) (s : State) : State :=
  match s.port with
  | some p =>
    if s.admits p.txn.addr p.txn.size && decide (k < p.txn.size.bytes) && !p.landed.contains k then
      { s with
        mem := s.mem.write (byteAddr p.txn.addr k).toNat (byteOf p.txn.value k)
        inflight := s.inflight.map fun f => ⟨f.desc, f.done + performedAhead (some ⟨p.txn, k :: p.landed⟩)⟩
        port := some ⟨p.txn, k :: p.landed⟩ }
    else s
  | none => s

/-- The host presents a descriptor with `valid` on the request port (R70), in the place of one not yet accepted (DESIGN
CHOICE: log entry 5). -/
def State.offer (D : BitVec 264) (s : State) : State := { s with request := some D }

/-- The host takes the response from the response port (R77; DESIGN CHOICE: log entry 8). -/
def State.takeResponse (s : State) : State := { s with response := none }

/-- A store by another agent (R54, R181): in its place in the one total order, the last writer of a byte wins (DESIGN
CHOICE: log entry 5); undivided, a torn store being several (DESIGN CHOICE: log entry 20). -/
def State.otherWrite (size : Width) (A : Addr) (v : BitVec 64) (s : State) : State :=
  { s with mem := Memory.storeBytes [] A v size.bytes s.mem }

/-- The move at the head of the agenda where it is not the instance's, with the state after it. -/
def State.otherMove (s : State) : Option State :=
  match s.agenda with
  | [] => none
  | .run _ :: _ => none
  | .present D :: rest => some ({ s with agenda := rest }.offer D)
  | .take :: rest => some { s with agenda := rest }.takeResponse
  | .write size A v :: rest => some ({ s with agenda := rest }.otherWrite size A v)
  | .land k :: rest => some ({ s with agenda := rest }.landByte k)
  | .reset :: rest => some { s with agenda := rest }.resetInput

/-- Up to `n` moves that stand at the head of the agenda, as far as they are not the instance's. -/
def State.othersMove : Nat → State → State
  | 0, s => s
  | n + 1, s =>
    match s.otherMove with
    | some t => t.othersMove n
    | none => s

end Sys2Proof.Machine
end

