-- ==== Sys2Proof/Machine/Uaddc.lean ====
section
/-! DEFINITION. UADDC.8, UADDC.16, UADDC.32 and UADDC.64: add with carry-in, store the carry-out, return the sum
(spec/42_uaddc_carry.md R140 to R149). -/

namespace Sys2Proof.Machine

/-- `(sum, ovf) = ADDC_W(a[W-1:0], b[W-1:0], c[0])` (R140, R141). -/
def uaddcResult (w : Width) (a b c : Slot) : BitVec w.bits × Bool :=
  addc (lowBits w a) (lowBits w b) (carryIn c)

/-- The one transaction: `ST(N(W), addr, zext_W(ovf))` (R140, R146, R149). -/
def uaddcCarryStore (w : Width) (d : Descriptor) : Txn :=
  ⟨carryOutSize w, d.addr, ovfValue (uaddcResult w d.a d.b d.c).2⟩

/-- UADDC.W (R140): one store, the carry-out; the response is the truncated sum, zero-extended. -/
def uaddcPlan (w : Width) (d : Descriptor) : Plan where
  desc := d
  count := 1
  txn := fun _ => uaddcCarryStore w d
  final := ⟨.ok, (uaddcResult w d.a d.b d.c).1.setWidth 64, 0⟩

/-- UADDC.8 (R142). -/
def execUaddc8 (a b c : Slot) (addr : Addr) (s : State) : Host.Outcome State Fault Refusal :=
  .next (s.runPlan (uaddcPlan .w8 ⟨0x20, a, b, c, addr⟩))

/-- UADDC.16 (R143). -/
def execUaddc16 (a b c : Slot) (addr : Addr) (s : State) : Host.Outcome State Fault Refusal :=
  .next (s.runPlan (uaddcPlan .w16 ⟨0x21, a, b, c, addr⟩))

/-- UADDC.32 (R144). -/
def execUaddc32 (a b c : Slot) (addr : Addr) (s : State) : Host.Outcome State Fault Refusal :=
  .next (s.runPlan (uaddcPlan .w32 ⟨0x22, a, b, c, addr⟩))

/-- UADDC.64 (R145). -/
def execUaddc64 (a b c : Slot) (addr : Addr) (s : State) : Host.Outcome State Fault Refusal :=
  .next (s.runPlan (uaddcPlan .w64 ⟨0x23, a, b, c, addr⟩))

end Sys2Proof.Machine
end

