-- ==== Sys2Proof/Machine/Uaddo.lean ====
section
/-! DEFINITION. UADDO.8, UADDO.16, UADDO.32 and UADDO.64: add with overflow and store (spec/41_uaddo_store.md R120 to
R129). -/

namespace Sys2Proof.Machine

/-- `(sum, ovf) = ADDO_W(a[W-1:0], b[W-1:0])` (R120). -/
def uaddoResult (w : Width) (a b : Slot) : BitVec w.bits × Bool := addo (lowBits w a) (lowBits w b)

/-- Transaction 1: `ST(N(W), addr, sum)` (R120). -/
def uaddoSumStore (w : Width) (d : Descriptor) : Txn := ⟨w, d.addr, (uaddoResult w d.a d.b).1.setWidth 64⟩

/-- Transaction 2: `ST(1, (addr + c) mod 2^64, ovf)` (R120). -/
def uaddoFlagStore (w : Width) (d : Descriptor) : Txn :=
  ⟨.w8, flagAddr d.addr d.c, ovfValue (uaddoResult w d.a d.b).2⟩

/-- UADDO.W (R120, R125): exactly two stores, the sum and then the flag; the response is the target address. -/
def uaddoPlan (w : Width) (d : Descriptor) : Plan where
  desc := d
  count := 2
  txn := fun k => if k = 0 then uaddoSumStore w d else uaddoFlagStore w d
  final := ⟨.ok, d.addr, 0⟩

/-- UADDO.8 (R121). -/
def execUaddo8 (a b c : Slot) (addr : Addr) (s : State) : Host.Outcome State Fault Refusal :=
  .next (s.runPlan (uaddoPlan .w8 ⟨0x10, a, b, c, addr⟩))

/-- UADDO.16 (R122). -/
def execUaddo16 (a b c : Slot) (addr : Addr) (s : State) : Host.Outcome State Fault Refusal :=
  .next (s.runPlan (uaddoPlan .w16 ⟨0x11, a, b, c, addr⟩))

/-- UADDO.32 (R123). -/
def execUaddo32 (a b c : Slot) (addr : Addr) (s : State) : Host.Outcome State Fault Refusal :=
  .next (s.runPlan (uaddoPlan .w32 ⟨0x12, a, b, c, addr⟩))

/-- UADDO.64 (R124). -/
def execUaddo64 (a b c : Slot) (addr : Addr) (s : State) : Host.Outcome State Fault Refusal :=
  .next (s.runPlan (uaddoPlan .w64 ⟨0x13, a, b, c, addr⟩))

end Sys2Proof.Machine
end

