-- ==== Sys2Proof/Machine/Zfill.lean ====
section
/-! DEFINITION. ZFILL: aggregate zero-fill (spec/43_zfill.md R160 to R167). -/

namespace Sys2Proof.Machine

/-- ZFILL (R160, R162): `length` single-byte stores of zero at `(addr + i) mod 2^64` in ascending `i`; the response is
the address. Slots b and c are ignored. -/
def zfillPlan (d : Descriptor) : Plan where
  desc := d
  count := d.a.toNat
  txn := fun i => ⟨.w8, byteAddr d.addr i, 0⟩
  final := ⟨.ok, d.addr, 0⟩

/-- ZFILL (R160). -/
def execZfill (a b c : Slot) (addr : Addr) (s : State) : Host.Outcome State Fault Refusal :=
  .next (s.runPlan (zfillPlan ⟨0x30, a, b, c, addr⟩))

end Sys2Proof.Machine
end

