-- ==== Sys2Proof/Machine/Dispatch.lean ====
section
/-! DEFINITION. The dispatch: one arm for each command of spec/30_encoding.md R74. -/

namespace Sys2Proof.Machine

/-- What a command does, from where it stands in the state. -/
def exec (i : Instr) (s : State) : Host.Outcome State Fault Refusal :=
  match i with
  | .uaddo8 a b c addr => Sys2Proof.Machine.execUaddo8 a b c addr s
  | .uaddo16 a b c addr => Sys2Proof.Machine.execUaddo16 a b c addr s
  | .uaddo32 a b c addr => Sys2Proof.Machine.execUaddo32 a b c addr s
  | .uaddo64 a b c addr => Sys2Proof.Machine.execUaddo64 a b c addr s
  | .uaddc8 a b c addr => Sys2Proof.Machine.execUaddc8 a b c addr s
  | .uaddc16 a b c addr => Sys2Proof.Machine.execUaddc16 a b c addr s
  | .uaddc32 a b c addr => Sys2Proof.Machine.execUaddc32 a b c addr s
  | .uaddc64 a b c addr => Sys2Proof.Machine.execUaddc64 a b c addr s
  | .zfill a b c addr => Sys2Proof.Machine.execZfill a b c addr s

end Sys2Proof.Machine
end

