-- ==== Sys2Proof/Machine/Turn.lean ====
section
/-! DEFINITION. The instance's turn: it carries on the command in flight, accepts the command presented, or stays IDLE
(spec/30_encoding.md R70; spec/20_memory.md R53). -/

namespace Sys2Proof.Machine

/-- Carry out the command of a descriptor: a legal one runs, a reserved code responds ILL (R76, R172; DESIGN CHOICE: log
entry 15). -/
def serve (d : Descriptor) (s : State) : Host.Outcome State Fault Refusal :=
  match decode d with
  | .instr i => exec i s
  | .reserved _ _ => .next (s.runPlan (illegalPlan d))

/-- The instance's turn (R70): BUSY, it carries on with its private copy (R21); IDLE, it accepts what is presented; with
nothing presented it stays IDLE. -/
def instanceTurn (s : State) : Host.Outcome State Fault Refusal :=
  match s.inflight with
  | some f => serve f.desc s
  | none =>
    match s.request with
    | some D => serve (Descriptor.ofBits D) (s.accept D)
    | none => .next s.endTurn

/-- The state with a descriptor presented on the request port of an IDLE instance, no transaction pending and no other
agent's move before it: the next step accepts and runs exactly it (DESIGN CHOICE: log entry 9). -/
def State.present (D : BitVec 264) (s : State) : State :=
  { s with inflight := none, port := none, request := some D, agenda := [] }

end Sys2Proof.Machine
end

