-- ==== Sys2Proof/Machine/Step.lean ====
section
/-! DEFINITION. One step: another agent's move where the agenda names one (spec/20_memory.md R54), else the instance's
turn (spec/30_encoding.md R70). -/

namespace Sys2Proof.Machine

/-- One step of the machine. -/
def step (s : State) : Host.Outcome State Fault Refusal :=
  match s.otherMove with
  | some t => .next t
  | none => instanceTurn s

/-- The state with the table word `w` of `nbits` bits (the bits above zero) presented by the host, to be run by the very
next step (DESIGN CHOICE: log entry 9). -/
def State.withFetchWord (s : State) (nbits w : Nat) : State := s.present (BitVec.ofNat 264 (w % 2 ^ nbits))

end Sys2Proof.Machine
end

