-- ==== Sys2Proof/Machine/Chain.lean ====
section
/-! DEFINITION. The carry chain that a host composes from ADDC (spec/42_uaddc_carry.md R150, R151): pure functions on
limbs, limb 0 first. OCA runs no chain by itself and keeps no carry between commands. -/

namespace Sys2Proof.Machine

/-- The number `sum of x_i * 2^(W*i)` that a list of limbs stands for, limb 0 first (R150). -/
def limbsValue {w : Width} : List (BitVec w.bits) → Nat
  | [] => 0
  | x :: xs => x.toNat + 2 ^ w.bits * limbsValue xs

/-- The chain of R150 over the pairs `(x_i, y_i)`: `(s_i, c_(i+1)) = ADDC_W(x_i, y_i, c_i)`; the limbs `s_i` and the
final carry `c_n`. -/
def chain {w : Width} : List (BitVec w.bits × BitVec w.bits) → Bool → List (BitVec w.bits) × Bool
  | [], c => ([], c)
  | (x, y) :: rest, c =>
    let limb := addc x y c
    let tail := chain rest limb.2
    (limb.1 :: tail.1, tail.2)

end Sys2Proof.Machine
end

