-- ==== Sys2Proof/Machine/Response.lean ====
section
/-! DEFINITION. The response's 74-bit layout (spec/30_encoding.md R77). -/

namespace Sys2Proof.Machine

/-- The code of a status (R77): 0 OK, 1 MEMFAULT, 2 ILL. -/
def Status.code : Status → BitVec 2
  | .ok => 0
  | .memfault => 1
  | .ill => 2

/-- The status of a code; 3 names none (R77, U10). -/
def Status.ofCode (c : BitVec 2) : Option Status :=
  match c.toNat with
  | 0 => some .ok
  | 1 => some .memfault
  | 2 => some .ill
  | _ => none

/-- `rsp = status + value * 2^2 + merr * 2^66` (R77). -/
def Response.toBits (r : Response) : BitVec 74 := r.merr ++ r.value ++ r.status.code

/-- The response of 74 bits, where its status code exists. -/
def Response.ofBits (R : BitVec 74) : Option Response :=
  (Status.ofCode (R.extractLsb' 0 2)).map fun st => ⟨st, R.extractLsb' 2 64, R.extractLsb' 66 8⟩

end Sys2Proof.Machine
end

