-- ==== Sys2Proof/Machine/Assembler.lean ====
section
/-! DEFINITION. The assembler (spec/30_encoding.md R80) and its aliases (R81): from a line of source to the one command it
stands for, or a rejection by name. The assembler is no part of OCA. -/

namespace Sys2Proof.Machine

/-- What stands in front of a line's operands: a mnemonic of R80, with the width it writes after the dot, or one of the
document's six names (R81), whose width is the first operand. -/
inductive AsmHead where
  | uaddo (W : Nat)
  | uaddc (W : Nat)
  | zfill
  | uaddWithOverflow
  | addWithOverflowStore
  | uaddWithOverflowAndCarry
  | addWithOverflowCarryStore
  | zeroInitAggregate
  | zeroInit
deriving DecidableEq, Repr

/-- A line of source: its head and its operands in the order of the document's parameter lists. -/
structure AsmLine where
  head : AsmHead
  operands : List Nat
deriving DecidableEq, Repr

/-- Why the assembler rejects a line (R80). -/
inductive AsmError where
  /-- `W` is not 8, 16, 32 or 64 -/
  | badWidth
  /-- `left` or `right` does not fit in `W` bits -/
  | operandTooWide
  /-- another operand does not fit in 64 bits -/
  | slotTooWide
  /-- not the operands of this command -/
  | badOperands
deriving DecidableEq, Repr

/-- What the assembler makes of a line. -/
inductive Assembled where
  | instr (i : Instr)
  | rejected (why : AsmError)
deriving DecidableEq, Repr

/-- The four widths by their number of bits (R3, R80). -/
def widthOfBits (W : Nat) : Option Width :=
  if W = 8 then some .w8
  else if W = 16 then some .w16
  else if W = 32 then some .w32
  else if W = 64 then some .w64
  else none

/-- `UADDO.W left, right, target_address, flag_offset` (R80). -/
def assembleUaddo (W left right target offset : Nat) : Assembled :=
  match widthOfBits W with
  | none => .rejected .badWidth
  | some w =>
    if 2 ^ w.bits ≤ left ∨ 2 ^ w.bits ≤ right then .rejected .operandTooWide
    else if 2 ^ 64 ≤ target ∨ 2 ^ 64 ≤ offset then .rejected .slotTooWide
    else .instr (Instr.uaddo w (BitVec.ofNat 64 left) (BitVec.ofNat 64 right) (BitVec.ofNat 64 offset)
      (BitVec.ofNat 64 target))

/-- `UADDC.W left, right, carry_in, carry_out_address` (R80). The assembler "sets every ignored bit (rule R73) to 0": of
`carry_in` only bit 0 stands in the slot (DEDUCED: log entry 10). -/
def assembleUaddc (W left right carry target : Nat) : Assembled :=
  match widthOfBits W with
  | none => .rejected .badWidth
  | some w =>
    if 2 ^ w.bits ≤ left ∨ 2 ^ w.bits ≤ right then .rejected .operandTooWide
    else if 2 ^ 64 ≤ carry ∨ 2 ^ 64 ≤ target then .rejected .slotTooWide
    else .instr (Instr.uaddc w (BitVec.ofNat 64 left) (BitVec.ofNat 64 right) (BitVec.ofNat 64 (carry % 2))
      (BitVec.ofNat 64 target))

/-- `ZFILL address, length` (R80). -/
def assembleZfill (address length : Nat) : Assembled :=
  if 2 ^ 64 ≤ address ∨ 2 ^ 64 ≤ length then .rejected .slotTooWide
  else .instr (.zfill (BitVec.ofNat 64 length) 0 0 (BitVec.ofNat 64 address))

/-- The command a line stands for (R80); an alias expands to exactly one command, its width the first operand (R81). -/
def assemble (line : AsmLine) : Assembled :=
  match line.head, line.operands with
  | .uaddo W, [l, r, t, off] => assembleUaddo W l r t off
  | .uaddc W, [l, r, cin, p] => assembleUaddc W l r cin p
  | .zfill, [A, L] => assembleZfill A L
  | .uaddWithOverflow, [W, l, r, t, off] => assembleUaddo W l r t off
  | .addWithOverflowStore, [W, l, r, t, off] => assembleUaddo W l r t off
  | .uaddWithOverflowAndCarry, [W, l, r, cin, p] => assembleUaddc W l r cin p
  | .addWithOverflowCarryStore, [W, l, r, cin, p] => assembleUaddc W l r cin p
  | .zeroInitAggregate, [A, L] => assembleZfill A L
  | .zeroInit, [A, L] => assembleZfill A L
  | _, _ => .rejected .badOperands

end Sys2Proof.Machine
end

