-- ==== Sys2Proof/Machine/Script.lean ====
section
/-! DEFINITION. The host's script (spec/00_scope.md R11) and its carry-chain protocol (spec/42_uaddc_carry.md R151): what
the host does with OCA. Neither is a part of OCA, which has no program counter (spec/10_state.md R22). -/

namespace Sys2Proof.Machine

/-- An operand of a script line: a number, or what an earlier line gave (lines counted from 0): the value `v<k>` of a
command's response, or what a HOSTREAD read. -/
inductive ScriptArg where
  | number (n : Nat)
  | result (k : Nat)
deriving DecidableEq, Repr

/-- A line of a script (R11). -/
inductive ScriptLine where
  /-- a command in the assembler's syntax (R80, R81) -/
  | command (head : AsmHead) (operands : List ScriptArg)
  /-- `HOSTREAD n, A` -/
  | hostRead (n : Width) (A : ScriptArg)
  /-- `HOSTWRITE n, A, v` -/
  | hostWrite (n : Width) (A v : ScriptArg)
deriving DecidableEq, Repr

/-- What a line gave: its value and, for a command, its status `s<k>`. Of HOSTWRITE it is `v` (DESIGN CHOICE: log entry
19). -/
structure LineResult where
  value : BitVec 64
  status : Option Status
deriving DecidableEq, Repr

/-- How the issue of one command ends. -/
inductive IssueEnd where
  /-- the command's own response, which the host has taken, and the state after that -/
  | responded (s : State) (r : Response)
  /-- reset ended the command, which never responds (R201) -/
  | abandoned (s : State)
  /-- the host still waits; `issue` never ends so (R209; statement `ScriptLineWaitsForItsResponse`) -/
  | waiting (s : State)
deriving DecidableEq, Repr

/-- How a script, or a line of it, ends: with the state reached and what the lines so far gave. -/
inductive ScriptEnd where
  | done (s : State) (results : List LineResult)
  /-- the assembler rejects a line, or an operand names a line that has given nothing yet (the latter DESIGN CHOICE: log
  entry 19) -/
  | rejected (why : AsmError)
  /-- a command that never responds (R201): no later line starts -/
  | abandoned (s : State) (results : List LineResult)
  /-- the host still waits for a response; never, as for `IssueEnd.waiting` -/
  | waiting (s : State) (results : List LineResult)
deriving DecidableEq, Repr

/-- The number an operand stands for. -/
def ScriptArg.eval (results : List LineResult) : ScriptArg → Option Nat
  | .number n => some n
  | .result k => (results[k]?).map fun r => r.value.toNat

/-- The numbers a line's operands stand for, if each has one. -/
def evalOperands (results : List LineResult) : List ScriptArg → Option (List Nat)
  | [] => some []
  | a :: rest =>
    match a.eval results, evalOperands results rest with
    | some n, some ns => some (n :: ns)
    | _, _ => none

/-- The next step accepts what is presented (R70): the instance is IDLE and moves. -/
def State.acceptsNext (s : State) : Bool := s.ready && s.otherMove.isNone

/-- The host's command has been accepted. The host waits, step by step, until it has ended: by its response, which the host
takes (R77), or by reset, and then no response stands on the port (R201). -/
def awaitResponse : Nat → State → IssueEnd
  | 0, s => .waiting s
  | n + 1, s =>
    match s.inflight, s.response with
    | none, some r => .responded s.takeResponse r
    | none, none => .abandoned s
    | some _, _ =>
      match step s with
      | .next t => awaitResponse n t
      | _ => .waiting s

/-- The host holds its descriptor on the request port, step by step, until it is accepted (R70), and then waits for the
response (R11). A command in flight before runs to its own end meanwhile. -/
def awaitAccept (D : BitVec 264) : Nat → State → IssueEnd
  | 0, s => .waiting s
  | n + 1, s =>
    match step (s.offer D) with
    | .next t => if s.acceptsNext then awaitResponse n t else awaitAccept D n t
    | _ => .waiting s

/-- The host issues a descriptor and waits for its own response (R11, R70; DESIGN CHOICE: log entry 17). Each step uses up one
entry of the agenda; with none left an earlier command ends in one step and this one in the next, and then its response is
taken. -/
def issue (D : BitVec 264) (s : State) : IssueEnd := awaitAccept D (s.agenda.length + 3) s

/-- Before an action of the host on memory, the moves of the other agents that stand at the head of the agenda happen (R54;
DESIGN CHOICE: log entry 17). -/
def State.beforeHost (s : State) : State := s.othersMove s.agenda.length

/-- One line (R11): a command, which ends with its response, or an action of the host on memory. Of a host action no number
is rejected: it is cut to 64 bits, and HOSTWRITE stores the low `8n` bits of `v` (DESIGN CHOICE: log entry 19). A host action is undivided, whatever its size (DESIGN
CHOICE: log entry 20). -/
def runLine (line : ScriptLine) (s : State) (results : List LineResult) : ScriptEnd :=
  match line with
  | .command head operands =>
    match evalOperands results operands with
    | none => .rejected .badOperands
    | some ns =>
      match assemble ⟨head, ns⟩ with
      | .rejected why => .rejected why
      | .instr i =>
        match issue (encode i) s with
        | .responded t r => .done t (results ++ [⟨r.value, some r.status⟩])
        | .abandoned t => .abandoned t results
        | .waiting t => .waiting t results
  | .hostRead n A =>
    match A.eval results with
    | none => .rejected .badOperands
    | some a =>
      .done s.beforeHost (results ++ [⟨s.beforeHost.memRead (BitVec.ofNat 64 a) n.bytes, none⟩])
  | .hostWrite n A v =>
    match A.eval results, v.eval results with
    | some a, some x =>
      .done (s.beforeHost.otherWrite n (BitVec.ofNat 64 a) (BitVec.ofNat 64 x))
        (results ++ [⟨BitVec.ofNat 64 x, none⟩])
    | _, _ => .rejected .badOperands

/-- A script: line `k+1` starts only after line `k` has responded (R11). -/
def runScript : List ScriptLine → State → List LineResult → ScriptEnd
  | [], s, results => .done s results
  | line :: rest, s, results =>
    match runLine line s results with
    | .done t more => runScript rest t more
    | other => other

/-- The chaining protocol (R151) over slots `(x_i, y_i)`: for each limb the host issues `UADDC.W x_i, y_i, cin_i, P`, waits
for its response `(OK, s_i)`, then reads `W/8` bytes at `P` and passes them on as the next carry-in. It gives the returned
sums, the last carry read and the state; none where a command ends otherwise. The read is undivided (DESIGN CHOICE: log entry
20). -/
def hostChain (w : Width) (P : Addr) : List (Slot × Slot) → Slot → State → Option (List (BitVec 64) × Slot × State)
  | [], cin, s => some ([], cin, s)
  | (x, y) :: rest, cin, s =>
    match issue (encode (Instr.uaddc w x y cin P)) s with
    | .responded t ⟨.ok, v, _⟩ =>
      (hostChain w P rest (t.beforeHost.memRead P w.bytes) t.beforeHost).map fun (vs, c, u) => (v :: vs, c, u)
    | _ => none

end Sys2Proof.Machine
end

