-- ==== Sys2Proof/Safety.lean ====
section
/-! DEFINITION. The terms claims use: the plan and the write set of a command (spec/20_memory.md R48, R60), a command
that begins undisturbed (spec/70_reset_and_hazards.md R204), and the invariant of the machine. -/

namespace Sys2Proof.Machine

/-- The plan of a command: its row of the access table of R48. -/
def planOf : Instr → Plan
  | .uaddo8 a b c addr => uaddoPlan .w8 ⟨0x10, a, b, c, addr⟩
  | .uaddo16 a b c addr => uaddoPlan .w16 ⟨0x11, a, b, c, addr⟩
  | .uaddo32 a b c addr => uaddoPlan .w32 ⟨0x12, a, b, c, addr⟩
  | .uaddo64 a b c addr => uaddoPlan .w64 ⟨0x13, a, b, c, addr⟩
  | .uaddc8 a b c addr => uaddcPlan .w8 ⟨0x20, a, b, c, addr⟩
  | .uaddc16 a b c addr => uaddcPlan .w16 ⟨0x21, a, b, c, addr⟩
  | .uaddc32 a b c addr => uaddcPlan .w32 ⟨0x22, a, b, c, addr⟩
  | .uaddc64 a b c addr => uaddcPlan .w64 ⟨0x23, a, b, c, addr⟩
  | .zfill a b c addr => zfillPlan ⟨0x30, a, b, c, addr⟩

/-- The plan of any descriptor: a reserved code has the ILL plan (R172). -/
def planOfDescriptor (d : Descriptor) : Plan :=
  match decode d with
  | .instr i => planOf i
  | .reserved _ _ => illegalPlan d

/-- The address `x` is one of the `n` bytes from `A` (mod `2^64`). -/
def inBytes (A : Addr) (n : Nat) (x : Addr) : Prop := ∃ k, k < n ∧ x = byteAddr A k

/-- The bytes a command writes (R60): those of each of its transactions. -/
def Plan.writes (p : Plan) (x : Addr) : Prop :=
  ∃ k, k < p.count ∧ inBytes (p.txn k).addr (p.txn k).size.bytes x

/-- The state after transactions `k` to `k + m - 1` of a plan have been performed, in that order (R53). -/
def Plan.performed (p : Plan) (k : Nat) : Nat → State → State
  | 0, s => s
  | m + 1, s => (Plan.performed p k m s).perform (p.txn (k + m))

/-- The memory subsystem accepts transaction `k` of a plan (R43). -/
def State.admitsTxn (s : State) (p : Plan) (k : Nat) : Prop := s.admits (p.txn k).addr (p.txn k).size = true

/-- A command begins (none of its transactions has been answered, none of its bytes has landed) and no other agent moves
before its response: the premise under which the spec states the effect of a command (R128, R148, R165, R204). -/
def State.Begins (s : State) : Prop := s.answered = 0 ∧ s.landed = [] ∧ s.quota = none

/-- The invariant: memory is canonical (log entry 1); an IDLE instance has no transaction pending; a BUSY one has performed at
most its command's transactions, `done` of them, which are those answered and the pending one where memory has taken all of
it (R27, R52); the next one is issued at once (log entry 18, the model's choice); its response port is empty (log entry 8, the
model's choice); bytes taken ahead are bytes of an accepted transaction, each once (R43, R49; log entry 5). -/
def State.Inv (s : State) : Prop :=
  s.mem.wf = true ∧
  (match s.inflight with
    | none => s.port = none
    | some f =>
      f.done ≤ (planOfDescriptor f.desc).count ∧
      f.done = s.answered + performedAhead s.port ∧
      s.port = (planOfDescriptor f.desc).pendingAt s.answered s.landed ∧
      s.response = none) ∧
  (∀ p, s.port = some p →
    p.landed.Nodup ∧ (∀ k ∈ p.landed, k < p.txn.size.bytes) ∧
    (p.landed ≠ [] → s.admits p.txn.addr p.txn.size = true))

end Sys2Proof.Machine
end

