-- ==== Sys2Proof/Certificates/Slice0/Obligations.lean ====
section
/-! DEFINITION. The statements for the provers, from the numbered rules of spec/. Each docstring names the rule a
statement formalises. First the shapes that several statements share, then one definition for each statement. -/

open Sys2Proof Sys2Proof.Machine

/-! ### Shapes -/

namespace Sys2Proof.Machine

/-- The exact sum of `left = a[W-1:0]` and `right = b[W-1:0]` as natural numbers (R73, R101). -/
def exactSum (w : Width) (a b : Slot) : Nat := a.toNat % 2 ^ w.bits + b.toNat % 2 ^ w.bits

/-- The exact sum with the effective carry-in `c[0]` (R106, R141). -/
def exactSumWithCarry (w : Width) (a b c : Slot) : Nat := exactSum w a b + c.toNat % 2

/-- Overflow as a number: 1 where the exact sum is at least `2^W`, else 0 (R101). -/
def overflowOf (w : Width) (sum : Nat) : Nat := if 2 ^ w.bits ≤ sum then 1 else 0

/-- Nothing around the instance differs: the request port, `admit`, the codes to come and, of the model's own fields, the
free values drawn, the agenda and the fault mark (log entries 3, 5 and 6). -/
def SameAround (s t : State) : Prop :=
  t.request = s.request ∧ t.refusing = s.refusing ∧ t.codes = s.codes ∧ t.draws = s.draws ∧ t.agenda = s.agenda ∧
  t.faultSeen = s.faultSeen

/-- The instance is IDLE and has sent the response `r` (R77). -/
def Responded (t : State) (r : Response) : Prop :=
  t.inflight = none ∧ t.port = none ∧ t.response = some r

/-- A memory fault was raised from `s` at address `A` (R171): the response carries the address and the code the subsystem
chose, unmodified; the request port, `admit` and the agenda are as they were. -/
def Faulted (s t : State) (A : Addr) : Prop :=
  Responded t ⟨.memfault, A, s.nextCode⟩ ∧ t.request = s.request ∧ t.refusing = s.refusing ∧ t.agenda = s.agenda

/-- What R128 says of UADDO.W, for the constructor `mk` of width `w`. -/
def UaddoStores (w : Width) (mk : Slot → Slot → Slot → Addr → Instr) : Prop :=
  ∀ (a b c : Slot) (addr : Addr) (s : State),
    s.Begins → s.admits addr w = true → s.admits (flagAddr addr c) .w8 = true →
    ∃ t, exec (mk a b c addr) s = .next t ∧
      (∀ k, k < w.bytes → byteAddr addr k ≠ flagAddr addr c →
        t.byteAt (byteAddr addr k) = BitVec.ofNat 8 (exactSum w a b % 2 ^ w.bits / 256 ^ k)) ∧
      t.byteAt (flagAddr addr c) = BitVec.ofNat 8 (overflowOf w (exactSum w a b)) ∧
      (∀ x, ¬inBytes addr w.bytes x → x ≠ flagAddr addr c → t.byteAt x = s.byteAt x) ∧
      ((∀ k, k < w.bytes → flagAddr addr c ≠ byteAddr addr k) →
        (t.memRead addr w.bytes).toNat = exactSum w a b % 2 ^ w.bits ∧
        (t.memRead (flagAddr addr c) 1).toNat = overflowOf w (exactSum w a b)) ∧
      Responded t ⟨.ok, addr, 0⟩ ∧ SameAround s t

/-- What R126 says of an overlapping flag: byte `c` of the stored sum is the flag, the other bytes are the sum's. -/
def UaddoOverlaps (w : Width) (mk : Slot → Slot → Slot → Addr → Instr) : Prop :=
  ∀ (a b c : Slot) (addr : Addr) (s : State),
    s.Begins → s.admits addr w = true → s.admits (flagAddr addr c) .w8 = true → c.toNat < w.bytes →
    ∃ t, exec (mk a b c addr) s = .next t ∧
      flagAddr addr c = byteAddr addr c.toNat ∧
      (t.memRead addr w.bytes).toNat =
        exactSum w a b % 2 ^ w.bits - exactSum w a b % 2 ^ w.bits / 256 ^ c.toNat % 256 * 256 ^ c.toNat +
          overflowOf w (exactSum w a b) * 256 ^ c.toNat

/-- What R127 says of UADDO.W when a store is refused. -/
def UaddoFaults (w : Width) (mk : Slot → Slot → Slot → Addr → Instr) : Prop :=
  ∀ (a b c : Slot) (addr : Addr) (s : State), s.Begins →
    (s.admits addr w = false →
      ∃ t, exec (mk a b c addr) s = .next t ∧ (∀ x, t.byteAt x = s.byteAt x) ∧ Faulted s t addr) ∧
    (s.admits addr w = true → s.admits (flagAddr addr c) .w8 = false →
      ∃ t, exec (mk a b c addr) s = .next t ∧
        (∀ k, k < w.bytes →
          t.byteAt (byteAddr addr k) = BitVec.ofNat 8 (exactSum w a b % 2 ^ w.bits / 256 ^ k)) ∧
        (∀ x, ¬inBytes addr w.bytes x → t.byteAt x = s.byteAt x) ∧ Faulted s t (flagAddr addr c))

/-- The sum is written before the flag (R125): after one move of UADDO.W the sum is stored, every other byte is as it was,
the flag store awaits its answer (that it has been issued at once is the model's choice, log entry 18) and no response has
been sent (R27). -/
def UaddoSumFirst (w : Width) (mk : Slot → Slot → Slot → Addr → Instr) : Prop :=
  ∀ (a b c : Slot) (addr : Addr) (s : State) (rest : List Move),
    s.answered = 0 → s.landed = [] → s.agenda = .run 1 :: rest → s.admits addr w = true →
    ∃ t, exec (mk a b c addr) s = .next t ∧
      (∀ k, k < w.bytes →
        t.byteAt (byteAddr addr k) = BitVec.ofNat 8 (exactSum w a b % 2 ^ w.bits / 256 ^ k)) ∧
      (∀ x, ¬inBytes addr w.bytes x → t.byteAt x = s.byteAt x) ∧
      t.inflight = some ⟨(mk a b c addr).descriptor, 1⟩ ∧
      t.port = some ⟨⟨.w8, flagAddr addr c, BitVec.ofNat 64 (overflowOf w (exactSum w a b))⟩, []⟩ ∧
      t.response = s.response ∧ t.agenda = rest

/-- What R148 says of UADDC.W, for the constructor `mk` of width `w`. -/
def UaddcStores (w : Width) (mk : Slot → Slot → Slot → Addr → Instr) : Prop :=
  ∀ (a b c : Slot) (addr : Addr) (s : State),
    s.Begins → s.admits addr w = true →
    ∃ t, exec (mk a b c addr) s = .next t ∧
      t.byteAt addr = BitVec.ofNat 8 (overflowOf w (exactSumWithCarry w a b c)) ∧
      (∀ k, 1 ≤ k → k < w.bytes → t.byteAt (byteAddr addr k) = 0) ∧
      (∀ x, ¬inBytes addr w.bytes x → t.byteAt x = s.byteAt x) ∧
      (t.memRead addr w.bytes).toNat = overflowOf w (exactSumWithCarry w a b c) ∧
      Responded t ⟨.ok, BitVec.ofNat 64 (exactSumWithCarry w a b c % 2 ^ w.bits), 0⟩ ∧ SameAround s t

/-- What R147 says of UADDC.W when its store is refused. -/
def UaddcFaults (mk : Slot → Slot → Slot → Addr → Instr) (w : Width) : Prop :=
  ∀ (a b c : Slot) (addr : Addr) (s : State), s.Begins → s.admits addr w = false →
    ∃ t, exec (mk a b c addr) s = .next t ∧ (∀ x, t.byteAt x = s.byteAt x) ∧ Faulted s t addr

/-- Slots of the same operands (R73): the same low `W` bits of `a` and of `b`. -/
def SameOperands (w : Width) (a b a' b' : Slot) : Prop :=
  a.toNat % 2 ^ w.bits = a'.toNat % 2 ^ w.bits ∧ b.toNat % 2 ^ w.bits = b'.toNat % 2 ^ w.bits

/-- The number that a list of slots stands for, limb 0 first, each cut to its low `W` bits (R73, R150). -/
def slotsValue (w : Width) : List (BitVec 64) → Nat
  | [] => 0
  | x :: xs => x.toNat % 2 ^ w.bits + 2 ^ w.bits * slotsValue w xs

/-- A command writes, from any state it stands in, no byte outside the set `bytes`. -/
def WritesOnly (i : Instr) (bytes : Addr → Prop) : Prop :=
  ∀ s, ∃ t, exec i s = .next t ∧ ∀ x, ¬bytes x → t.byteAt x = s.byteAt x

/-- The value of an OK response (R78). -/
def OkValue : Instr → BitVec 64
  | .uaddo8 _ _ _ addr | .uaddo16 _ _ _ addr | .uaddo32 _ _ _ addr | .uaddo64 _ _ _ addr => addr
  | .uaddc8 a b c _ => BitVec.ofNat 64 (exactSumWithCarry .w8 a b c % 2 ^ 8)
  | .uaddc16 a b c _ => BitVec.ofNat 64 (exactSumWithCarry .w16 a b c % 2 ^ 16)
  | .uaddc32 a b c _ => BitVec.ofNat 64 (exactSumWithCarry .w32 a b c % 2 ^ 32)
  | .uaddc64 a b c _ => BitVec.ofNat 64 (exactSumWithCarry .w64 a b c % 2 ^ 64)
  | .zfill _ _ _ addr => addr

/-- The instance moves next: the agenda is empty or names it. -/
def InstanceMoves (s : State) : Prop := s.agenda = [] ∨ ∃ n rest, s.agenda = .run n :: rest

/-- The response `r` is one that command `i`, issued where `s` stands, can give (R77, R78): OK with the command's value, or
the memory fault of one of its own transactions, which the memory subsystem refuses (R171). -/
def IsResponseOf (i : Instr) (s : State) (r : Response) : Prop :=
  r = ⟨.ok, OkValue i, 0⟩ ∨
  (r.status = .memfault ∧ ∃ k, k < (planOf i).count ∧ ¬s.admitsTxn (planOf i) k ∧ r.value = ((planOf i).txn k).addr)

/-- No move on the agenda is a reset, and none is another agent's store to one of the `n` bytes from `A`. -/
def LeavesAlone (A : Addr) (n : Nat) (moves : List Move) : Prop :=
  Move.reset ∉ moves ∧ ∀ size B v, Move.write size B v ∈ moves → ∀ x, inBytes B size.bytes x → ¬inBytes A n x

end Sys2Proof.Machine

/-! ### The adder (spec/40_adder.md) -/

/-- R101: ADDO is the sum modulo `2^W` and the carry-out, with the rule's corner cases and its worked example. -/
def Obligations.AddoSumAndOverflow : Prop :=
  (∀ (w : Width) (l r : BitVec w.bits),
    (addo l r).1.toNat = (l.toNat + r.toNat) % 2 ^ w.bits ∧
    ((addo l r).2 = true ↔ 2 ^ w.bits ≤ l.toNat + r.toNat)) ∧
  (∀ w : Width,
    addo (0 : BitVec w.bits) 0 = (0, false) ∧
    addo (BitVec.allOnes w.bits) 1 = (0, true) ∧
    addo (BitVec.allOnes w.bits) (BitVec.allOnes w.bits) = (BitVec.allOnes w.bits - 1, true) ∧
    ∀ l : BitVec w.bits, addo l 0 = (l, false)) ∧
  addo (w := .w8) 250 10 = (4, true)

/-- R104 (with R102 and R103): the wider-accumulator form and the bit-trick form give the pair of R101. -/
def Obligations.ThreeOverflowFormsAgree : Prop :=
  ∀ (w : Width) (l r : BitVec w.bits),
    (l.setWidth (w.bits + 1) + r.setWidth (w.bits + 1)).setWidth w.bits = (addo l r).1 ∧
    ovfWide l r = (addo l r).2 ∧ ovfTrick l r = (addo l r).2

/-- R105: the sum is in range, overflow is the carry-out, and the two give the exact sum. -/
def Obligations.AddoExactDecomposition : Prop :=
  ∀ (w : Width) (l r : BitVec w.bits),
    (addo l r).1.toNat < 2 ^ w.bits ∧ ((addo l r).2 = true ↔ 2 ^ w.bits ≤ l.toNat + r.toNat) ∧
    l.toNat + r.toNat = (addo l r).1.toNat + (addo l r).2.toNat * 2 ^ w.bits

/-- R107: ADDC as a whole: never two overflows; sum and carry-out of `l + r + cin`; the exact decomposition. -/
def Obligations.AddcComputesExactSum : Prop :=
  ∀ (w : Width) (l r : BitVec w.bits) (cin : Bool),
    ¬((addo l r).2 = true ∧ (addo (addo l r).1 (carryOperand w cin)).2 = true) ∧
    (addc l r cin).1.toNat = (l.toNat + r.toNat + cin.toNat) % 2 ^ w.bits ∧
    ((addc l r cin).2 = true ↔ 2 ^ w.bits ≤ l.toNat + r.toNat + cin.toNat) ∧
    l.toNat + r.toNat + cin.toNat = (addc l r cin).1.toNat + (addc l r cin).2.toNat * 2 ^ w.bits

/-- R108: with a one-bit carry-in the exact sum is at most `2^(W+1) - 1`, only bit `W` of the four above the boundary can
be set, and so the masks `0xF << W` and `1 << W` cannot be told apart; the test is OCA's `ovf`. -/
def Obligations.CarryMasksIndistinguishable : Prop :=
  ∀ (w : Width) (l r : BitVec w.bits) (cin : Bool),
    l.toNat + r.toNat + cin.toNat ≤ 2 ^ (w.bits + 1) - 1 ∧
    (∀ j, 1 ≤ j → j ≤ 3 → (l.toNat + r.toNat + cin.toNat).testBit (w.bits + j) = false) ∧
    ((l.toNat + r.toNat + cin.toNat) &&& (0xF <<< w.bits) ≠ 0 ↔
      (l.toNat + r.toNat + cin.toNat) &&& (1 <<< w.bits) ≠ 0) ∧
    ((l.toNat + r.toNat + cin.toNat) &&& (1 <<< w.bits) ≠ 0 ↔ (addc l r cin).2 = true)

/-- R109 laws 3, 4 and 5 and R106's first corner case: commutativity, identity, the comparison form. -/
def Obligations.AdderLaws : Prop :=
  ∀ (w : Width) (l r : BitVec w.bits) (c : Bool),
    addo l r = addo r l ∧ addc l r c = addc r l c ∧ addc l r false = addo l r ∧
    ((addo l r).2 = true ↔ (addo l r).1.toNat < l.toNat) ∧ ((addo l r).2 = true ↔ (addo l r).1.toNat < r.toNat)

/-- R150: the chain law, for any number of limbs. -/
def Obligations.CarryChainLaw : Prop :=
  ∀ (w : Width) (limbs : List (BitVec w.bits × BitVec w.bits)) (c : Bool),
    (chain limbs c).1.length = limbs.length ∧
    limbsValue (limbs.map Prod.fst) + limbsValue (limbs.map Prod.snd) + c.toNat =
      limbsValue (chain limbs c).1 + (chain limbs c).2.toNat * 2 ^ (w.bits * limbs.length)

/-! ### Encoding (spec/30_encoding.md) -/

/-- Decoding an encoded command gives it back, with every slot at every value (R71, R74). -/
def Obligations.DecodeInvertsEncode : Prop :=
  ∀ i : Instr, decodeBits (encode i) = .instr i

/-- Each legal descriptor has one reading: encoding what was decoded gives the descriptor back (R71, R74). -/
def Obligations.EncodeInvertsDecode : Prop :=
  ∀ (D : BitVec 264) (i : Instr), decodeBits D = .instr i → encode i = D

/-- R71: the descriptor as a number, and the fields read back from it. -/
def Obligations.DescriptorLayout : Prop :=
  ∀ d : Descriptor,
    d.toBits.toNat =
      d.cmd.toNat + d.a.toNat * 2 ^ 8 + d.b.toNat * 2 ^ 72 + d.c.toNat * 2 ^ 136 + d.addr.toNat * 2 ^ 200 ∧
    Descriptor.ofBits d.toBits = d

/-- R74, R76: a descriptor selects a command exactly when its low byte is one of the nine codes; the three groups of
reserved codes are rejected by name. -/
def Obligations.NineCodesAndReservedGroups : Prop :=
  ∀ d : Descriptor,
    ((∃ i, decode d = .instr i) ↔
      d.cmd ∈ ([0x10, 0x11, 0x12, 0x13, 0x20, 0x21, 0x22, 0x23, 0x30] : List (BitVec 8))) ∧
    (d.cmd.toNat / 16 ≠ 1 ∧ d.cmd.toNat / 16 ≠ 2 ∧ d.cmd.toNat / 16 ≠ 3 ↔
      decode d = .reserved .unknownFamily d.cmd) ∧
    ((0x14 ≤ d.cmd.toNat ∧ d.cmd.toNat ≤ 0x1F) ∨ (0x24 ≤ d.cmd.toNat ∧ d.cmd.toNat ≤ 0x2F) ↔
      decode d = .reserved .reservedBits d.cmd) ∧
    (0x31 ≤ d.cmd.toNat ∧ d.cmd.toNat ≤ 0x3F ↔ decode d = .reserved .zfillNibble d.cmd)

/-- Words of 95_test_vectors.md decode to the commands they print, and the nearest reserved codes to none (R71, R74, R76):
a sanity statement. -/
def Obligations.PrintedDescriptorsDecode : Prop :=
  decodeBits 0x00000000000010000000000000000001000000000000000A00000000000000FA10 = .instr (.uaddo8 250 10 1 0x1000) ∧
  decodeBits 0x000000000000400000000000000000088000000000000001800000000000000013 =
    .instr (.uaddo64 0x8000000000000000 0x8000000000000001 8 0x4000) ∧
  decodeBits 0x00000000000050200000000000000001000000007FFFFFFF000000007FFFFFFF22 =
    .instr (.uaddc32 0x7FFFFFFF 0x7FFFFFFF 1 0x5020) ∧
  decodeBits 0x000000000000600000000000000000000000000000000000000000000000001030 = .instr (.zfill 16 0 0 0x6000) ∧
  decodeBits 0x000000000000100000000000000000030000000000000002000000000000000114 = .reserved .reservedBits 0x14 ∧
  decodeBits 0x000000000000100000000000000000000000000000000000000000000000000431 = .reserved .zfillNibble 0x31

/-- R73: an ignored bit has no effect on what an undisturbed command does, nor on whether a descriptor is legal. -/
def Obligations.IgnoredBitsHaveNoEffect : Prop :=
  (∀ (w : Width) (a b a' b' c : Slot) (addr : Addr) (s : State), s.Begins → SameOperands w a b a' b' →
    exec (Instr.uaddo w a b c addr) s = exec (Instr.uaddo w a' b' c addr) s) ∧
  (∀ (w : Width) (a b a' b' c c' : Slot) (addr : Addr) (s : State), s.Begins → SameOperands w a b a' b' →
    c.toNat % 2 = c'.toNat % 2 →
    exec (Instr.uaddc w a b c addr) s = exec (Instr.uaddc w a' b' c' addr) s) ∧
  (∀ (a b c b' c' : Slot) (addr : Addr) (s : State), s.Begins →
    exec (.zfill a b c addr) s = exec (.zfill a b' c' addr) s) ∧
  (∀ d d' : Descriptor, d.cmd = d'.cmd → ((∃ i, decode d = .instr i) ↔ ∃ i, decode d' = .instr i))

/-- R80, R81: what the assembler writes is well formed, every well-formed command can be written, and each alias stands
for the same command as the mnemonic's line. -/
def Obligations.AssemblerWritesWellFormed : Prop :=
  (∀ (line : AsmLine) (i : Instr), assemble line = .instr i → i.wellFormed = true) ∧
  (∀ i : Instr, i.wellFormed = true → ∃ line, assemble line = .instr i) ∧
  (∀ W l r x y : Nat,
    assemble ⟨.uaddWithOverflow, [W, l, r, x, y]⟩ = assemble ⟨.uaddo W, [l, r, x, y]⟩ ∧
    assemble ⟨.addWithOverflowStore, [W, l, r, x, y]⟩ = assemble ⟨.uaddo W, [l, r, x, y]⟩ ∧
    assemble ⟨.uaddWithOverflowAndCarry, [W, l, r, x, y]⟩ = assemble ⟨.uaddc W, [l, r, x, y]⟩ ∧
    assemble ⟨.addWithOverflowCarryStore, [W, l, r, x, y]⟩ = assemble ⟨.uaddc W, [l, r, x, y]⟩ ∧
    assemble ⟨.zeroInitAggregate, [x, y]⟩ = assemble ⟨.zfill, [x, y]⟩ ∧
    assemble ⟨.zeroInit, [x, y]⟩ = assemble ⟨.zfill, [x, y]⟩)

/-- R77's layout: the response's 74 bits as a number, read back, and status 3 never produced. -/
def Obligations.ResponseLayout : Prop :=
  ∀ r : Response,
    r.toBits.toNat = r.status.code.toNat + r.value.toNat * 2 ^ 2 + r.merr.toNat * 2 ^ 66 ∧
    r.status.code ≠ 3 ∧ Response.ofBits r.toBits = some r

/-! ### UADDO (spec/41_uaddo_store.md) -/

/-- R128: the whole effect of a fault-free UADDO.8, UADDO.16, UADDO.32 and UADDO.64. -/
def Obligations.UaddoWholeEffect : Prop :=
  UaddoStores .w8 .uaddo8 ∧ UaddoStores .w16 .uaddo16 ∧ UaddoStores .w32 .uaddo32 ∧ UaddoStores .w64 .uaddo64

/-- R126: a flag offset below `W/8` puts the flag over one byte of the sum. -/
def Obligations.UaddoOverlapDamagesOneByte : Prop :=
  UaddoOverlaps .w8 .uaddo8 ∧ UaddoOverlaps .w16 .uaddo16 ∧ UaddoOverlaps .w32 .uaddo32 ∧ UaddoOverlaps .w64 .uaddo64

/-- R127: the two faults of UADDO.W. -/
def Obligations.UaddoRefusedStores : Prop :=
  UaddoFaults .w8 .uaddo8 ∧ UaddoFaults .w16 .uaddo16 ∧ UaddoFaults .w32 .uaddo32 ∧ UaddoFaults .w64 .uaddo64

/-- R125, R27: sum, then flag. -/
def Obligations.UaddoSumBeforeFlag : Prop :=
  UaddoSumFirst .w8 .uaddo8 ∧ UaddoSumFirst .w16 .uaddo16 ∧ UaddoSumFirst .w32 .uaddo32 ∧ UaddoSumFirst .w64 .uaddo64

/-! ### UADDC (spec/42_uaddc_carry.md) -/

/-- R148: the whole effect of a fault-free UADDC.8, UADDC.16, UADDC.32 and UADDC.64. -/
def Obligations.UaddcWholeEffect : Prop :=
  UaddcStores .w8 .uaddc8 ∧ UaddcStores .w16 .uaddc16 ∧ UaddcStores .w32 .uaddc32 ∧ UaddcStores .w64 .uaddc64

/-- R147: the fault of UADDC.W; the sum is not returned. -/
def Obligations.UaddcRefusedStore : Prop :=
  UaddcFaults .uaddc8 .w8 ∧ UaddcFaults .uaddc16 .w16 ∧ UaddcFaults .uaddc32 .w32 ∧ UaddcFaults .uaddc64 .w64

/-- R150, R151: any number of limbs, at least one, chained by the host (it waits for each limb's response, reads the carry
back from memory and passes it on) add as one number of `W * n` bits, whatever stands on the agenda but a reset and other
agents' stores to the carry cell: turns that pause a limb, bytes landing early, stores elsewhere. Only the carry cell and
what those stores write change. That the agents' order stands on the agenda is the model's choice (log entry 5); how the
host waits and when it reads is log entry 17. -/
def Obligations.HostChainAddsWide : Prop :=
  ∀ (w : Width) (P : Addr) (limbs : List (Slot × Slot)) (cin : Slot) (s : State),
    limbs ≠ [] → s.inflight = none → s.port = none → s.admits P w = true → LeavesAlone P w.bytes s.agenda →
    ∃ vs c t, hostChain w P limbs cin s = some (vs, c, t) ∧
      vs.length = limbs.length ∧ (∀ v ∈ vs, v.toNat < 2 ^ w.bits) ∧ c.toNat ≤ 1 ∧
      slotsValue w (limbs.map Prod.fst) + slotsValue w (limbs.map Prod.snd) + cin.toNat % 2 =
        slotsValue w vs + c.toNat * 2 ^ (w.bits * limbs.length) ∧
      (∀ x, ¬inBytes P w.bytes x → (∀ size A v, Move.write size A v ∈ s.agenda → ¬inBytes A size.bytes x) →
        t.byteAt x = s.byteAt x)

/-- R11, R70, R80: a script's command line, with no other agent to move and the instance IDLE, runs exactly the command the
assembler makes of it, and gives its response, which the host takes (how the host takes it is log entry 17). -/
def Obligations.ScriptLineRunsItsCommand : Prop :=
  ∀ (head : AsmHead) (ns : List Nat) (i : Instr) (s : State) (results : List LineResult),
    s.agenda = [] → s.inflight = none → assemble ⟨head, ns⟩ = .instr i →
    ∃ t r, exec i (s.accept (encode i)) = .next t ∧ t.response = some r ∧
      runLine (.command head (ns.map .number)) s results =
        .done { t with response := none } (results ++ [⟨r.value, some r.status⟩])

/-! ### ZFILL (spec/43_zfill.md) -/

/-- R165: the whole effect of a fault-free ZFILL. -/
def Obligations.ZfillWholeEffect : Prop :=
  ∀ (a b c : Slot) (addr : Addr) (s : State), s.Begins →
    (∀ x, inBytes addr a.toNat x → s.admits x .w8 = true) →
    ∃ t, exec (.zfill a b c addr) s = .next t ∧
      (∀ x, inBytes addr a.toNat x → t.byteAt x = 0) ∧
      (∀ x, ¬inBytes addr a.toNat x → t.byteAt x = s.byteAt x) ∧
      Responded t ⟨.ok, addr, 0⟩ ∧ SameAround s t

/-- R164: the first refused byte ends a ZFILL; the prefix stays zeroed. -/
def Obligations.ZfillStopsAtFirstRefusal : Prop :=
  ∀ (a b c : Slot) (addr : Addr) (s : State) (i : Nat), s.Begins → i < a.toNat →
    (∀ j, j < i → s.admits (byteAddr addr j) .w8 = true) → s.admits (byteAddr addr i) .w8 = false →
    ∃ t, exec (.zfill a b c addr) s = .next t ∧
      (∀ x, inBytes addr i x → t.byteAt x = 0) ∧ (∀ x, ¬inBytes addr i x → t.byteAt x = s.byteAt x) ∧
      Faulted s t (byteAddr addr i)

/-- R161: length zero issues no transaction and succeeds whatever the memory subsystem refuses. -/
def Obligations.ZfillLengthZero : Prop :=
  ∀ (b c : Slot) (addr : Addr) (s : State), s.Begins →
    ∃ t, exec (.zfill 0 b c addr) s = .next t ∧ t.mem = s.mem ∧ Responded t ⟨.ok, addr, 0⟩ ∧ SameAround s t

/-- R163: read-back and idempotence. -/
def Obligations.ZfillIdempotent : Prop :=
  ∀ (a b c : Slot) (addr : Addr) (s : State), s.Begins →
    (∀ x, inBytes addr a.toNat x → s.admits x .w8 = true) →
    ∃ t u, exec (.zfill a b c addr) s = .next t ∧ exec (.zfill a b c addr) t = .next u ∧
      (∀ k, k < a.toNat → t.byteAt (byteAddr addr k) = 0) ∧
      (∀ x, u.byteAt x = t.byteAt x) ∧ (s.mem.wf = true → u.mem = t.mem) ∧ u.response = t.response

/-! ### All commands -/

/-- R60: from any state a command stands in, paused or not, refused or not, it writes only the bytes of its write set. -/
def Obligations.CommandsWriteOnlyTheirBytes : Prop :=
  ∀ (a b c : Slot) (addr : Addr),
    WritesOnly (.uaddo8 a b c addr) (fun x => inBytes addr 1 x ∨ x = flagAddr addr c) ∧
    WritesOnly (.uaddo16 a b c addr) (fun x => inBytes addr 2 x ∨ x = flagAddr addr c) ∧
    WritesOnly (.uaddo32 a b c addr) (fun x => inBytes addr 4 x ∨ x = flagAddr addr c) ∧
    WritesOnly (.uaddo64 a b c addr) (fun x => inBytes addr 8 x ∨ x = flagAddr addr c) ∧
    WritesOnly (.uaddc8 a b c addr) (inBytes addr 1) ∧
    WritesOnly (.uaddc16 a b c addr) (inBytes addr 2) ∧
    WritesOnly (.uaddc32 a b c addr) (inBytes addr 4) ∧
    WritesOnly (.uaddc64 a b c addr) (inBytes addr 8) ∧
    WritesOnly (.zfill a b c addr) (inBytes addr a.toNat)

/-- The frame of every command outside memory, from any state (R28, R77, R175, R209): it pauses BUSY with its own
descriptor and at least the transactions answered that it had, or it responds OK, or it raises a memory fault; the request port and `admit`
are as they were. Of the model's own fields: the agenda loses at most the turn that ended (log entry 5), a fault uses up one
code (log entry 3) and sets the fault mark (log entry 6). -/
def Obligations.CommandsEndInOneOfThreeWays : Prop :=
  ∀ (i : Instr) (s : State), ∃ t, exec i s = .next t ∧
    t.request = s.request ∧ t.refusing = s.refusing ∧ t.agenda = s.endTurn.agenda ∧
    ((∃ k, s.quota.isSome = true ∧ s.answered ≤ k ∧ t.inflight = some ⟨i.descriptor, k⟩ ∧ t.response = s.response ∧
        t.codes = s.codes ∧ t.draws = s.draws ∧ t.faultSeen = s.faultSeen) ∨
     (Responded t ⟨.ok, OkValue i, 0⟩ ∧ t.codes = s.codes ∧ t.draws = s.draws ∧ t.faultSeen = s.faultSeen) ∨
     (∃ A, Responded t ⟨.memfault, A, s.nextCode⟩ ∧ t.codes = s.useCode.codes ∧ t.draws = s.useCode.draws ∧
        t.faultSeen = true))

/-- R171, R174: of an undisturbed command the first refused transaction is the one reported; those before it stay
performed, no byte of it or of a later one is written. -/
def Obligations.FirstRefusalIsReported : Prop :=
  ∀ (i : Instr) (s : State) (k : Nat), s.Begins → k < (planOf i).count →
    (∀ j, j < k → s.admitsTxn (planOf i) j) → ¬s.admitsTxn (planOf i) k →
    ∃ t, exec i s = .next t ∧ t.mem = ((planOf i).performed 0 k s).mem ∧
      (∀ x, (∀ j, j < k → ¬inBytes ((planOf i).txn j).addr ((planOf i).txn j).size.bytes x) →
        t.byteAt x = s.byteAt x) ∧
      Faulted s t ((planOf i).txn k).addr

/-- R43, R171, R173: with `admit` true everywhere no command faults, whatever its operands: an undisturbed command, from
wherever it stands, responds OK with the value of R78. -/
def Obligations.NoFaultWhenNothingIsRefused : Prop :=
  ∀ (i : Instr) (s : State), s.quota = none → (∀ A n, s.admits A n = true) →
    ∃ t, exec i s = .next t ∧ Responded t ⟨.ok, OkValue i, 0⟩ ∧ SameAround s t

/-- R42, R53, R209: a turn of `n` moves performs exactly the first `n` transactions, in order, and leaves the next one
awaiting its answer. Turns are the model's (log entry 5), and so is that the next transaction is issued at once (log entry
18). -/
def Obligations.TurnPerformsTransactionsInOrder : Prop :=
  ∀ (i : Instr) (s : State) (n : Nat) (rest : List Move),
    s.answered = 0 → s.landed = [] → s.agenda = .run n :: rest → n ≤ (planOf i).count →
    (∀ j, j < n → s.admitsTxn (planOf i) j) →
    ∃ t, exec i s = .next t ∧ t.mem = ((planOf i).performed 0 n s).mem ∧
      t.inflight = some ⟨i.descriptor, n⟩ ∧ t.port = (planOf i).pendingAt n [] ∧ t.response = s.response ∧
      t.agenda = rest

/-- R53: a pause in which no other agent moves changes nothing: carrying on gives what the command would have given
undisturbed. Pauses are the model's (log entry 5). -/
def Obligations.PauseAloneChangesNothing : Prop :=
  ∀ (i : Instr) (s : State) (n : Nat), s.agenda = [.run n] →
    ∃ t, exec i s = .next t ∧
      (t.inflight ≠ none → exec i t = exec i { s with agenda := [] }) ∧
      (t.inflight = none → exec i { s with agenda := [] } = .next t)

/-- R176: after a memory fault the same command issued again, once nothing of it is refused, leaves every byte and gives
the response as if the first attempt had not been made. -/
def Obligations.RetryAfterFaultSucceeds : Prop :=
  ∀ (i : Instr) (s : State) (k : Nat) (R : List (Nat × Nat)), s.Begins → k < (planOf i).count →
    (∀ j, j < k → s.admitsTxn (planOf i) j) → ¬s.admitsTxn (planOf i) k →
    (∀ j, j < (planOf i).count → State.admitsTxn { s with refusing := R } (planOf i) j) →
    ∃ t u v, exec i s = .next t ∧ exec i { t with refusing := R } = .next u ∧
      exec i { s with refusing := R } = .next v ∧ u.response = v.response ∧ ∀ x, u.byteAt x = v.byteAt x

/-! ### Memory and the machine -/

/-- R44, R45: an accepted store writes its bytes, little-endian and modulo `2^64`, and no other; reading it back gives the
stored value. -/
def Obligations.StoreThenReadGivesValue : Prop :=
  ∀ (s : State) (n : Width) (A : Addr) (v : BitVec 64), s.landed = [] →
    (∀ k, k < n.bytes → (s.perform ⟨n, A, v⟩).byteAt (byteAddr A k) = BitVec.ofNat 8 (v.toNat / 256 ^ k)) ∧
    (∀ x, ¬inBytes A n.bytes x → (s.perform ⟨n, A, v⟩).byteAt x = s.byteAt x) ∧
    ((s.perform ⟨n, A, v⟩).memRead A n.bytes).toNat = v.toNat % 2 ^ n.bits

/-- R70, R53: a step in which the instance moves accepts a presented legal command only when IDLE, and then runs exactly
it, BUSY with the copied descriptor, no transaction performed; BUSY, it carries on with its private copy. That the response
port is empty from the acceptance on is the model's choice (log entry 8). -/
def Obligations.StepRunsDecodedCommand : Prop :=
  (∀ (s : State) (D : BitVec 264) (i : Instr), InstanceMoves s → s.inflight = none → s.request = some D →
    decodeBits D = .instr i →
    step s = exec i
      { s with inflight := some ⟨Descriptor.ofBits D, 0⟩, request := none, response := none, port := none }) ∧
  (∀ (s : State) (f : InFlight) (i : Instr), InstanceMoves s → s.inflight = some f → decode f.desc = .instr i →
    step s = exec i s)

/-- R76, R172: a reserved code is accepted, issues no transaction, changes no byte and responds ILL with `zext_64(cmd)`;
its slots are ignored. -/
def Obligations.ReservedCodeRespondsIll : Prop :=
  ∀ (s : State) (D : BitVec 264), s.agenda = [] → s.inflight = none → s.request = some D →
    (∀ i, decodeBits D ≠ .instr i) →
    step s = .next { s with
      inflight := none
      request := none
      port := none
      response := some ⟨.ill, (Descriptor.ofBits D).cmd.setWidth 64, 0⟩ }

/-- R70: a BUSY instance is not ready: a step in which it moves leaves the request port as it is. -/
def Obligations.BusyInstanceAcceptsNothing : Prop :=
  ∀ (s : State) (f : InFlight), InstanceMoves s → s.inflight = some f →
    s.ready = false ∧ ∃ t, step s = .next t ∧ t.request = s.request

/-- R21, R27, R57: no agent changes the private copy of a command in flight: a step from a BUSY state that is BUSY again has
the same descriptor. From a state that meets the invariant its progress `done` never goes back. -/
def Obligations.PrivateCopyIsImmutable : Prop :=
  ∀ (s t : State) (f g : InFlight), s.inflight = some f → step s = .next t → t.inflight = some g →
    g.desc = f.desc ∧ (s.Inv → f.done ≤ g.done)

/-- R209: an undisturbed BUSY instance responds, once, and is IDLE; with R202, so does an IDLE one to which a command is
presented. -/
def Obligations.UndisturbedInstanceResponds : Prop :=
  ∀ s : State, s.agenda = [] → (s.inflight ≠ none ∨ s.request ≠ none) →
    ∃ t r, step s = .next t ∧ Responded t r

/-- R22, R70: an IDLE instance to which nothing is presented does nothing. -/
def Obligations.IdleInstanceStaysIdle : Prop :=
  ∀ s : State, s.agenda = [] → s.inflight = none → s.request = none → step s = .next s

/-- R170, R175: nothing stops OCA: every step, from every state, gives a next state. -/
def Obligations.NothingStopsTheMachine : Prop :=
  ∀ s : State, ∃ t, step s = .next t

/-- R54, R57: a store by another agent writes its bytes, the last writer of each wins, and touches nothing of the
instance. That the agents' order stands on the agenda is the model's choice (log entry 5). -/
def Obligations.OtherAgentsStore : Prop :=
  ∀ (s : State) (n : Width) (A : Addr) (v : BitVec 64) (rest : List Move), s.agenda = .write n A v :: rest →
    ∃ t, step s = .next t ∧
      (∀ k, k < n.bytes → t.byteAt (byteAddr A k) = BitVec.ofNat 8 (v.toNat / 256 ^ k)) ∧
      (∀ x, ¬inBytes A n.bytes x → t.byteAt x = s.byteAt x) ∧
      t.inflight = s.inflight ∧ t.port = s.port ∧ t.request = s.request ∧ t.response = s.response ∧
      t.refusing = s.refusing ∧ t.agenda = rest

/-- R60, R206: a store by another agent between two moves of a command, to bytes the command does not write, changes nothing
of it: the response and every byte outside that store are those of the undisturbed command, and the store stands. That the
other agent's store stands on the agenda is the model's choice (log entry 5). -/
def Obligations.DisjointWriterDoesNotInterfere : Prop :=
  ∀ (i : Instr) (s : State) (n : Nat) (size : Width) (A : Addr) (v : BitVec 64),
    s.agenda = [.run n, .write size A v] → (∀ x, inBytes A size.bytes x → ¬(planOf i).writes x) →
    ∃ t, exec i s = .next t ∧
      (t.inflight ≠ none →
        ∃ t' u w, step t = .next t' ∧ exec i t' = .next u ∧ exec i { s with agenda := [] } = .next w ∧
          u.inflight = none ∧ u.response = w.response ∧
          (∀ x, ¬inBytes A size.bytes x → u.byteAt x = w.byteAt x) ∧
          (∀ k, k < size.bytes → u.byteAt (byteAddr A k) = BitVec.ofNat 8 (v.toNat / 256 ^ k)))

/-- R70, R77, R181: the host presents a descriptor and takes a response, and changes nothing else by that. That these moves
stand on the agenda is the model's choice (log entry 5), and so is that taking empties the response port, for which the spec
gives no handshake (log entry 8). -/
def Obligations.HostPresentsAndTakes : Prop :=
  (∀ (s : State) (D : BitVec 264) (rest : List Move), s.agenda = .present D :: rest →
    step s = .next { s with request := some D, agenda := rest }) ∧
  (∀ (s : State) (rest : List Move), s.agenda = .take :: rest →
    step s = .next { s with response := none, agenda := rest })

/-- R27, R43, R49, R52: the memory may take one byte of the transaction awaiting its answer ahead of the others, and only of
one it accepts; a refused transaction changes no byte. With the last of its bytes the transaction has been performed, and
`done` counts it, though it is unanswered. How the model tears a store is log entry 5. -/
def Obligations.OneByteMayLandAhead : Prop :=
  ∀ (s : State) (k : Nat) (p : Pending) (rest : List Move),
    s.agenda = .land k :: rest → s.port = some p → k < p.txn.size.bytes → k ∉ p.landed →
    ∃ t, step s = .next t ∧ t.request = s.request ∧ t.response = s.response ∧ t.agenda = rest ∧
      (∀ x, x ≠ byteAddr p.txn.addr k → t.byteAt x = s.byteAt x) ∧
      (s.admits p.txn.addr p.txn.size = true →
        t.port = some ⟨p.txn, k :: p.landed⟩ ∧
        t.byteAt (byteAddr p.txn.addr k) = BitVec.ofNat 8 (p.txn.value.toNat / 256 ^ k) ∧
        (∀ f, s.inflight = some f →
          ((∀ j, j < p.txn.size.bytes → j = k ∨ j ∈ p.landed) → t.inflight = some ⟨f.desc, f.done + 1⟩) ∧
          ((∃ j, j < p.txn.size.bytes ∧ j ≠ k ∧ j ∉ p.landed) → t.inflight = some f)) ∧
        (s.inflight = none → t.inflight = none)) ∧
      (s.admits p.txn.addr p.txn.size = false →
        t.port = s.port ∧ t.inflight = s.inflight ∧
        t.byteAt (byteAddr p.txn.addr k) = s.byteAt (byteAddr p.txn.addr k))

/-- R49, R54: a byte of a store that the memory has taken ahead is not written again when the store is answered, so another
agent's later store to it stands; the other bytes are written then. How the model tears a store is log entry 5. -/
def Obligations.LandedBytesAreNotRewritten : Prop :=
  ∀ (s : State) (t : Txn) (L : List Nat), s.port = some ⟨t, L⟩ →
    ∀ k, k < t.size.bytes →
      (s.perform t).byteAt (byteAddr t.addr k) =
        if k ∈ L then s.byteAt (byteAddr t.addr k) else BitVec.ofNat 8 (t.value.toNat / 256 ^ k)

/-- R201: reset abandons a command in flight: no response, nothing pending; every byte keeps its value, but that each byte of
the transaction awaiting its answer may hold the value the command would have written (free, byte by byte: log entry 4).
The host's request and the model's own fields stay (log entries 3, 5, 6 and 7). -/
def Obligations.ResetAbandonsCommand : Prop :=
  ∀ (s : State) (rest : List Move), s.agenda = .reset :: rest →
    ∃ t, step s = .next t ∧ t.inflight = none ∧ t.port = none ∧ t.response = none ∧
      t.request = s.request ∧ t.refusing = s.refusing ∧ t.codes = s.codes ∧ t.agenda = rest ∧
      t.faultSeen = s.faultSeen ∧
      (∀ x, t.byteAt x = s.byteAt x ∨
        ∃ p, s.port = some p ∧ s.admits p.txn.addr p.txn.size = true ∧
          ∃ k, k < p.txn.size.bytes ∧ x = byteAddr p.txn.addr k ∧
            t.byteAt x = BitVec.ofNat 8 (p.txn.value.toNat / 256 ^ k)) ∧
      (s.port = none → t.mem = s.mem ∧ t.draws = s.draws)

/-- R8, R28: `admit` is a launch parameter: no step changes it. -/
def Obligations.AdmissionNeverChanges : Prop :=
  ∀ s t : State, step s = .next t → t.refusing = s.refusing

/-- R29, R204: the launch state: IDLE and ready, no response and no transaction pending, every byte as `mem0` has it. -/
def Obligations.LaunchState : Prop :=
  State.reset.inflight = none ∧ State.reset.ready = true ∧ State.reset.response = none ∧ State.reset.port = none ∧
  ∀ x : Addr, State.reset.byteAt x = Config.mem0 x.toNat

/-- The invariant holds at launch. It is the model's: its canonical list is log entry 1, its landed bytes are log entry 5,
its pending transaction of a BUSY instance with stores left is log entry 18, and its empty response port of one is log
entry 8. -/
def Obligations.InvariantAtReset : Prop := State.reset.Inv

/-- Every step keeps the invariant. From the rules (R26, R27, R42, R43, R49, R52): an IDLE instance has no transaction
pending; a pending transaction of a BUSY one is the first of its command that has not been answered; `done` stays in range and
counts the answered transactions and the pending one where memory has taken all of it; bytes taken ahead are those of a
transaction the subsystem accepts. The model's choices: that memory is a canonical list (log entry 1), how bytes land ahead
(log entry 5), that the next transaction is issued at once, so that one is pending as long as any is left (log entry 18; R42
says only that it is not issued sooner), and that the response port of a BUSY instance is empty, because accepting a command
empties it (log entry 8; no rule says that an old response is gone). -/
def Obligations.StepKeepsInvariant : Prop :=
  ∀ s t : State, s.Inv → step s = .next t → t.Inv

/-! ### Scripts (spec/00_scope.md R11) -/

/-- R11, R77, R201, R209: a command line waits for its own response, from every state and under every agenda, with the
instance IDLE or BUSY with an earlier command, whose response it never gives: it ends done with one result more, that of the
command itself, and the response taken; or, where a reset stands on the agenda, it may end abandoned with no result. A
reserved code issued the same way gives its ILL response. How the host waits and takes is the model's (log entry 17), and so
are the agenda (log entry 5) and the response port (log entry 8). -/
def Obligations.ScriptLineWaitsForItsResponse : Prop :=
  (∀ (head : AsmHead) (ns : List Nat) (i : Instr) (s : State) (results : List LineResult),
    assemble ⟨head, ns⟩ = .instr i →
    (∃ t r, runLine (.command head (ns.map .number)) s results = .done t (results ++ [⟨r.value, some r.status⟩]) ∧
      IsResponseOf i s r ∧ t.inflight = none ∧ t.port = none ∧ t.response = none) ∨
    (Move.reset ∈ s.agenda ∧ ∃ t, runLine (.command head (ns.map .number)) s results = .abandoned t results ∧
      t.inflight = none ∧ t.port = none ∧ t.response = none)) ∧
  (∀ (D : BitVec 264) (s : State), (∀ i, decodeBits D ≠ .instr i) → Move.reset ∉ s.agenda →
    ∃ t, issue D s = .responded t ⟨.ill, (Descriptor.ofBits D).cmd.setWidth 64, 0⟩ ∧
      t.inflight = none ∧ t.port = none ∧ t.response = none)
end

