-- ==== Sys2Proof/Laws/State.lean ====
section
/-! SUPPORT. One lemma for each field under each update of the state, tagged for simp, so that no proof unfolds a record
update. -/

namespace Sys2Proof.Machine


/-! `perform` -/

@[simp] theorem State.perform_mem (t : Txn) (s : State) : (s.perform t).mem = Memory.storeBytes s.landed t.addr t.value t.size.bytes s.mem := rfl
@[simp] theorem State.perform_inflight (t : Txn) (s : State) : (s.perform t).inflight = s.inflight := rfl
@[simp] theorem State.perform_request (t : Txn) (s : State) : (s.perform t).request = s.request := rfl
@[simp] theorem State.perform_response (t : Txn) (s : State) : (s.perform t).response = s.response := rfl
@[simp] theorem State.perform_port (t : Txn) (s : State) : (s.perform t).port = none := rfl
@[simp] theorem State.perform_refusing (t : Txn) (s : State) : (s.perform t).refusing = s.refusing := rfl
@[simp] theorem State.perform_codes (t : Txn) (s : State) : (s.perform t).codes = s.codes := rfl
@[simp] theorem State.perform_draws (t : Txn) (s : State) : (s.perform t).draws = s.draws := rfl
@[simp] theorem State.perform_agenda (t : Txn) (s : State) : (s.perform t).agenda = s.agenda := rfl
@[simp] theorem State.perform_faultSeen (t : Txn) (s : State) : (s.perform t).faultSeen = s.faultSeen := rfl

/-! `respond` -/

@[simp] theorem State.respond_mem (r : Response) (s : State) : (s.respond r).mem = s.mem := rfl
@[simp] theorem State.respond_inflight (r : Response) (s : State) : (s.respond r).inflight = none := rfl
@[simp] theorem State.respond_request (r : Response) (s : State) : (s.respond r).request = s.request := rfl
@[simp] theorem State.respond_response (r : Response) (s : State) : (s.respond r).response = some r := rfl
@[simp] theorem State.respond_port (r : Response) (s : State) : (s.respond r).port = none := rfl
@[simp] theorem State.respond_refusing (r : Response) (s : State) : (s.respond r).refusing = s.refusing := rfl
@[simp] theorem State.respond_codes (r : Response) (s : State) : (s.respond r).codes = s.codes := rfl
@[simp] theorem State.respond_draws (r : Response) (s : State) : (s.respond r).draws = s.draws := rfl
@[simp] theorem State.respond_agenda (r : Response) (s : State) : (s.respond r).agenda = s.agenda := rfl
@[simp] theorem State.respond_faultSeen (r : Response) (s : State) : (s.respond r).faultSeen = (s.faultSeen || r.status == .memfault) := rfl

/-! `pause` -/

@[simp] theorem State.pause_mem (p : Plan) (k : Nat) (s : State) : (s.pause p k).mem = s.mem := rfl
@[simp] theorem State.pause_inflight (p : Plan) (k : Nat) (s : State) : (s.pause p k).inflight =
    some ⟨p.desc, k + performedAhead (p.pendingAt k s.landed)⟩ := rfl
@[simp] theorem State.pause_request (p : Plan) (k : Nat) (s : State) : (s.pause p k).request = s.request := rfl
@[simp] theorem State.pause_response (p : Plan) (k : Nat) (s : State) : (s.pause p k).response = s.response := rfl
@[simp] theorem State.pause_port (p : Plan) (k : Nat) (s : State) : (s.pause p k).port = p.pendingAt k s.landed := rfl
@[simp] theorem State.pause_refusing (p : Plan) (k : Nat) (s : State) : (s.pause p k).refusing = s.refusing := rfl
@[simp] theorem State.pause_codes (p : Plan) (k : Nat) (s : State) : (s.pause p k).codes = s.codes := rfl
@[simp] theorem State.pause_draws (p : Plan) (k : Nat) (s : State) : (s.pause p k).draws = s.draws := rfl
@[simp] theorem State.pause_agenda (p : Plan) (k : Nat) (s : State) : (s.pause p k).agenda = s.agenda := rfl
@[simp] theorem State.pause_faultSeen (p : Plan) (k : Nat) (s : State) : (s.pause p k).faultSeen = s.faultSeen := rfl

/-! `accept` -/

@[simp] theorem State.accept_mem (D : BitVec 264) (s : State) : (s.accept D).mem = s.mem := rfl
@[simp] theorem State.accept_inflight (D : BitVec 264) (s : State) : (s.accept D).inflight = some ⟨Descriptor.ofBits D, 0⟩ := rfl
@[simp] theorem State.accept_request (D : BitVec 264) (s : State) : (s.accept D).request = none := rfl
@[simp] theorem State.accept_response (D : BitVec 264) (s : State) : (s.accept D).response = none := rfl
@[simp] theorem State.accept_port (D : BitVec 264) (s : State) : (s.accept D).port = none := rfl
@[simp] theorem State.accept_refusing (D : BitVec 264) (s : State) : (s.accept D).refusing = s.refusing := rfl
@[simp] theorem State.accept_codes (D : BitVec 264) (s : State) : (s.accept D).codes = s.codes := rfl
@[simp] theorem State.accept_draws (D : BitVec 264) (s : State) : (s.accept D).draws = s.draws := rfl
@[simp] theorem State.accept_agenda (D : BitVec 264) (s : State) : (s.accept D).agenda = s.agenda := rfl
@[simp] theorem State.accept_faultSeen (D : BitVec 264) (s : State) : (s.accept D).faultSeen = s.faultSeen := rfl

/-! `offer` -/

@[simp] theorem State.offer_mem (D : BitVec 264) (s : State) : (s.offer D).mem = s.mem := rfl
@[simp] theorem State.offer_inflight (D : BitVec 264) (s : State) : (s.offer D).inflight = s.inflight := rfl
@[simp] theorem State.offer_request (D : BitVec 264) (s : State) : (s.offer D).request = some D := rfl
@[simp] theorem State.offer_response (D : BitVec 264) (s : State) : (s.offer D).response = s.response := rfl
@[simp] theorem State.offer_port (D : BitVec 264) (s : State) : (s.offer D).port = s.port := rfl
@[simp] theorem State.offer_refusing (D : BitVec 264) (s : State) : (s.offer D).refusing = s.refusing := rfl
@[simp] theorem State.offer_codes (D : BitVec 264) (s : State) : (s.offer D).codes = s.codes := rfl
@[simp] theorem State.offer_draws (D : BitVec 264) (s : State) : (s.offer D).draws = s.draws := rfl
@[simp] theorem State.offer_agenda (D : BitVec 264) (s : State) : (s.offer D).agenda = s.agenda := rfl
@[simp] theorem State.offer_faultSeen (D : BitVec 264) (s : State) : (s.offer D).faultSeen = s.faultSeen := rfl

/-! `takeResponse` -/

@[simp] theorem State.takeResponse_mem (s : State) : (s.takeResponse).mem = s.mem := rfl
@[simp] theorem State.takeResponse_inflight (s : State) : (s.takeResponse).inflight = s.inflight := rfl
@[simp] theorem State.takeResponse_request (s : State) : (s.takeResponse).request = s.request := rfl
@[simp] theorem State.takeResponse_response (s : State) : (s.takeResponse).response = none := rfl
@[simp] theorem State.takeResponse_port (s : State) : (s.takeResponse).port = s.port := rfl
@[simp] theorem State.takeResponse_refusing (s : State) : (s.takeResponse).refusing = s.refusing := rfl
@[simp] theorem State.takeResponse_codes (s : State) : (s.takeResponse).codes = s.codes := rfl
@[simp] theorem State.takeResponse_draws (s : State) : (s.takeResponse).draws = s.draws := rfl
@[simp] theorem State.takeResponse_agenda (s : State) : (s.takeResponse).agenda = s.agenda := rfl
@[simp] theorem State.takeResponse_faultSeen (s : State) : (s.takeResponse).faultSeen = s.faultSeen := rfl

/-! `otherWrite` -/

@[simp] theorem State.otherWrite_mem (n : Width) (A : Addr) (v : BitVec 64) (s : State) : (s.otherWrite n A v).mem = Memory.storeBytes [] A v n.bytes s.mem := rfl
@[simp] theorem State.otherWrite_inflight (n : Width) (A : Addr) (v : BitVec 64) (s : State) : (s.otherWrite n A v).inflight = s.inflight := rfl
@[simp] theorem State.otherWrite_request (n : Width) (A : Addr) (v : BitVec 64) (s : State) : (s.otherWrite n A v).request = s.request := rfl
@[simp] theorem State.otherWrite_response (n : Width) (A : Addr) (v : BitVec 64) (s : State) : (s.otherWrite n A v).response = s.response := rfl
@[simp] theorem State.otherWrite_port (n : Width) (A : Addr) (v : BitVec 64) (s : State) : (s.otherWrite n A v).port = s.port := rfl
@[simp] theorem State.otherWrite_refusing (n : Width) (A : Addr) (v : BitVec 64) (s : State) : (s.otherWrite n A v).refusing = s.refusing := rfl
@[simp] theorem State.otherWrite_codes (n : Width) (A : Addr) (v : BitVec 64) (s : State) : (s.otherWrite n A v).codes = s.codes := rfl
@[simp] theorem State.otherWrite_draws (n : Width) (A : Addr) (v : BitVec 64) (s : State) : (s.otherWrite n A v).draws = s.draws := rfl
@[simp] theorem State.otherWrite_agenda (n : Width) (A : Addr) (v : BitVec 64) (s : State) : (s.otherWrite n A v).agenda = s.agenda := rfl
@[simp] theorem State.otherWrite_faultSeen (n : Width) (A : Addr) (v : BitVec 64) (s : State) : (s.otherWrite n A v).faultSeen = s.faultSeen := rfl

/-! `useCode` -/

@[simp] theorem State.useCode_mem (s : State) : (s.useCode).mem = s.mem := by
  unfold State.useCode; repeat' split
  all_goals rfl
@[simp] theorem State.useCode_inflight (s : State) : (s.useCode).inflight = s.inflight := by
  unfold State.useCode; repeat' split
  all_goals rfl
@[simp] theorem State.useCode_request (s : State) : (s.useCode).request = s.request := by
  unfold State.useCode; repeat' split
  all_goals rfl
@[simp] theorem State.useCode_response (s : State) : (s.useCode).response = s.response := by
  unfold State.useCode; repeat' split
  all_goals rfl
@[simp] theorem State.useCode_port (s : State) : (s.useCode).port = s.port := by
  unfold State.useCode; repeat' split
  all_goals rfl
@[simp] theorem State.useCode_refusing (s : State) : (s.useCode).refusing = s.refusing := by
  unfold State.useCode; repeat' split
  all_goals rfl
@[simp] theorem State.useCode_agenda (s : State) : (s.useCode).agenda = s.agenda := by
  unfold State.useCode; repeat' split
  all_goals rfl
@[simp] theorem State.useCode_faultSeen (s : State) : (s.useCode).faultSeen = s.faultSeen := by
  unfold State.useCode; repeat' split
  all_goals rfl

/-! `endTurn` -/

@[simp] theorem State.endTurn_mem (s : State) : (s.endTurn).mem = s.mem := by
  unfold State.endTurn; repeat' split
  all_goals rfl
@[simp] theorem State.endTurn_inflight (s : State) : (s.endTurn).inflight = s.inflight := by
  unfold State.endTurn; repeat' split
  all_goals rfl
@[simp] theorem State.endTurn_request (s : State) : (s.endTurn).request = s.request := by
  unfold State.endTurn; repeat' split
  all_goals rfl
@[simp] theorem State.endTurn_response (s : State) : (s.endTurn).response = s.response := by
  unfold State.endTurn; repeat' split
  all_goals rfl
@[simp] theorem State.endTurn_port (s : State) : (s.endTurn).port = s.port := by
  unfold State.endTurn; repeat' split
  all_goals rfl
@[simp] theorem State.endTurn_refusing (s : State) : (s.endTurn).refusing = s.refusing := by
  unfold State.endTurn; repeat' split
  all_goals rfl
@[simp] theorem State.endTurn_codes (s : State) : (s.endTurn).codes = s.codes := by
  unfold State.endTurn; repeat' split
  all_goals rfl
@[simp] theorem State.endTurn_draws (s : State) : (s.endTurn).draws = s.draws := by
  unfold State.endTurn; repeat' split
  all_goals rfl
@[simp] theorem State.endTurn_faultSeen (s : State) : (s.endTurn).faultSeen = s.faultSeen := by
  unfold State.endTurn; repeat' split
  all_goals rfl

/-! `settlePort` -/

@[simp] theorem State.settlePort_inflight (s : State) : (s.settlePort).inflight = s.inflight := by
  unfold State.settlePort; repeat' split
  all_goals rfl
@[simp] theorem State.settlePort_request (s : State) : (s.settlePort).request = s.request := by
  unfold State.settlePort; repeat' split
  all_goals rfl
@[simp] theorem State.settlePort_response (s : State) : (s.settlePort).response = s.response := by
  unfold State.settlePort; repeat' split
  all_goals rfl
@[simp] theorem State.settlePort_port (s : State) : (s.settlePort).port = s.port := by
  unfold State.settlePort; repeat' split
  all_goals rfl
@[simp] theorem State.settlePort_refusing (s : State) : (s.settlePort).refusing = s.refusing := by
  unfold State.settlePort; repeat' split
  all_goals rfl
@[simp] theorem State.settlePort_codes (s : State) : (s.settlePort).codes = s.codes := by
  unfold State.settlePort; repeat' split
  all_goals rfl
@[simp] theorem State.settlePort_agenda (s : State) : (s.settlePort).agenda = s.agenda := by
  unfold State.settlePort; repeat' split
  all_goals rfl
@[simp] theorem State.settlePort_faultSeen (s : State) : (s.settlePort).faultSeen = s.faultSeen := by
  unfold State.settlePort; repeat' split
  all_goals rfl

/-! `landByte` -/

/-- A byte landing early leaves the private copy, and so IDLE and BUSY, as they are. -/
@[simp] theorem State.landByte_inflight_desc (k : Nat) (s : State) :
    (s.landByte k).inflight.map InFlight.desc = s.inflight.map InFlight.desc := by
  unfold State.landByte; repeat' split
  all_goals cases s.inflight <;> rfl
@[simp] theorem State.landByte_request (k : Nat) (s : State) : (s.landByte k).request = s.request := by
  unfold State.landByte; repeat' split
  all_goals rfl
@[simp] theorem State.landByte_response (k : Nat) (s : State) : (s.landByte k).response = s.response := by
  unfold State.landByte; repeat' split
  all_goals rfl
@[simp] theorem State.landByte_refusing (k : Nat) (s : State) : (s.landByte k).refusing = s.refusing := by
  unfold State.landByte; repeat' split
  all_goals rfl
@[simp] theorem State.landByte_codes (k : Nat) (s : State) : (s.landByte k).codes = s.codes := by
  unfold State.landByte; repeat' split
  all_goals rfl
@[simp] theorem State.landByte_draws (k : Nat) (s : State) : (s.landByte k).draws = s.draws := by
  unfold State.landByte; repeat' split
  all_goals rfl
@[simp] theorem State.landByte_agenda (k : Nat) (s : State) : (s.landByte k).agenda = s.agenda := by
  unfold State.landByte; repeat' split
  all_goals rfl
@[simp] theorem State.landByte_faultSeen (k : Nat) (s : State) : (s.landByte k).faultSeen = s.faultSeen := by
  unfold State.landByte; repeat' split
  all_goals rfl

/-! `resetInput` -/

@[simp] theorem State.resetInput_mem (s : State) : s.resetInput.mem = s.settlePort.mem := by
  simp [State.resetInput]
@[simp] theorem State.resetInput_inflight (s : State) : s.resetInput.inflight = none := by
  simp [State.resetInput]
@[simp] theorem State.resetInput_request (s : State) : s.resetInput.request = s.request := by
  simp [State.resetInput]
@[simp] theorem State.resetInput_response (s : State) : s.resetInput.response = none := by
  simp [State.resetInput]
@[simp] theorem State.resetInput_port (s : State) : s.resetInput.port = none := by
  simp [State.resetInput]
@[simp] theorem State.resetInput_refusing (s : State) : s.resetInput.refusing = s.refusing := by
  simp [State.resetInput]
@[simp] theorem State.resetInput_codes (s : State) : s.resetInput.codes = s.codes := by
  simp [State.resetInput]
@[simp] theorem State.resetInput_draws (s : State) : s.resetInput.draws = s.settlePort.draws := by
  simp [State.resetInput]
@[simp] theorem State.resetInput_agenda (s : State) : s.resetInput.agenda = s.agenda := by
  simp [State.resetInput]
@[simp] theorem State.resetInput_faultSeen (s : State) : s.resetInput.faultSeen = s.faultSeen := by
  simp [State.resetInput]

/-! What is read off a transaction awaiting its answer. -/

theorem Pending.whole_iff {p : Pending} : p.whole = true ↔ ∀ j, j < p.txn.size.bytes → j ∈ p.landed := by
  simp [Pending.whole]

/-- A transaction of which a byte is still to come has not been performed. -/
theorem performedAhead_of_missing {p : Pending} {j : Nat} (hj : j < p.txn.size.bytes) (h : j ∉ p.landed) :
    performedAhead (some p) = 0 := by
  have hw : p.whole = false := by
    rw [← Bool.not_eq_true, Pending.whole_iff]
    exact fun hall => h (hall j hj)
  simp [performedAhead, hw]

@[simp] theorem performedAhead_none : performedAhead none = 0 := rfl
@[simp] theorem performedAhead_nil (t : Txn) : performedAhead (some ⟨t, []⟩) = 0 :=
  performedAhead_of_missing (j := 0) (by cases t.size <;> decide) (by simp)
@[simp] theorem Plan.performedAhead_pendingAt_nil (p : Plan) (k : Nat) : performedAhead (p.pendingAt k []) = 0 := by
  unfold Plan.pendingAt; split <;> simp

/-! What is read off a state after an update. -/

@[simp] theorem State.perform_landed (t : Txn) (s : State) : (s.perform t).landed = [] := rfl
@[simp] theorem State.pause_answered (p : Plan) (k : Nat) (s : State) : (s.pause p k).answered = k :=
  Nat.add_sub_cancel k _
@[simp] theorem State.accept_landed (D : BitVec 264) (s : State) : (s.accept D).landed = [] := rfl
@[simp] theorem State.accept_answered (D : BitVec 264) (s : State) : (s.accept D).answered = 0 := rfl
@[simp] theorem State.accept_quota (D : BitVec 264) (s : State) : (s.accept D).quota = s.quota := rfl
@[simp] theorem State.respond_landed (r : Response) (s : State) : (s.respond r).landed = [] := rfl
@[simp] theorem State.respond_answered (r : Response) (s : State) : (s.respond r).answered = 0 := rfl
@[simp] theorem State.respond_quota (r : Response) (s : State) : (s.respond r).quota = s.quota := rfl
@[simp] theorem State.perform_admits (t : Txn) (s : State) (A : Addr) (n : Width) :
    (s.perform t).admits A n = s.admits A n := rfl
@[simp] theorem State.respond_admits (r : Response) (s : State) (A : Addr) (n : Width) :
    (s.respond r).admits A n = s.admits A n := rfl
@[simp] theorem State.accept_admits (D : BitVec 264) (s : State) (A : Addr) (n : Width) :
    (s.accept D).admits A n = s.admits A n := rfl
@[simp] theorem State.useCode_admits (s : State) (A : Addr) (n : Width) :
    s.useCode.admits A n = s.admits A n := by simp [State.admits]
@[simp] theorem State.endTurn_admits (s : State) (A : Addr) (n : Width) :
    s.endTurn.admits A n = s.admits A n := by simp [State.admits]
@[simp] theorem State.endTurn_landed (s : State) : s.endTurn.landed = s.landed := by simp [State.landed]
@[simp] theorem State.endTurn_answered (s : State) : s.endTurn.answered = s.answered := by simp [State.answered]
@[simp] theorem State.perform_nextCode (t : Txn) (s : State) : (s.perform t).nextCode = s.nextCode := rfl
@[simp] theorem State.endTurn_nextCode (s : State) : s.endTurn.nextCode = s.nextCode := by
  simp [State.nextCode]

/-- A state whose agenda does not name the instance keeps its agenda when the turn ends. -/
theorem State.endTurn_of_quota_none {s : State} (h : s.quota = none) : s.endTurn = s := by
  unfold State.quota at h
  unfold State.endTurn
  split <;> simp_all

end Sys2Proof.Machine
end

