-- ==== Sys2Proof/Laws/Memory.lean ====
section
/-! SUPPORT. The laws of memory: a read after a write, the canonical form, and what a store does to each byte
(spec/20_memory.md R44, R45). -/

namespace Sys2Proof.Machine

/-- Reading after writing one byte: the byte written at its address, and nothing else changes. -/
theorem Memory.lookup_write (m : Memory) (a : Nat) (v : Byte) (x : Nat) :
    (m.write a v).lookup x = if x = a then some v else m.lookup x := by
  induction m with
  | nil => simp [Memory.write, Memory.lookup]
  | cons cell m ih =>
    obtain ⟨b, u⟩ := cell
    simp only [Memory.write]
    split
    · simp [Memory.lookup]
    · split
      · subst_vars; simp only [Memory.lookup]; split <;> simp_all
      · rename_i hab
        simp only [Memory.lookup, ih]
        by_cases hx : x = b
        · subst hx; simp [Ne.symm hab]
        · simp [hx]

/-- Writing one byte keeps the addresses rising. -/
theorem Memory.risesFrom_write {m : Memory} {lo a : Nat} (v : Byte) (h : m.risesFrom lo = true) (hlo : lo ≤ a)
    (ha : a < 2 ^ Config.addressBits) : (m.write a v).risesFrom lo = true := by
  induction m generalizing lo with
  | nil => simp [Memory.write, Memory.risesFrom, hlo, ha]
  | cons cell m ih =>
    obtain ⟨b, u⟩ := cell
    simp only [Memory.risesFrom, Bool.and_eq_true, decide_eq_true_eq] at h
    obtain ⟨⟨h1, h2⟩, h3⟩ := h
    simp only [Memory.write]
    split
    · rename_i hab
      simp [Memory.risesFrom, hlo, ha, h2, h3, Nat.succ_le_of_lt hab]
    · split
      · subst_vars; simp [Memory.risesFrom, h1, h2, h3]
      · have := ih h3 (by omega)
        simp [Memory.risesFrom, h1, h2, this]

/-- Writing one byte of the address space keeps the canonical form. -/
theorem Memory.write_wf {m : Memory} {a : Nat} (v : Byte) (h : m.wf = true) (ha : a < 2 ^ Config.addressBits) :
    (m.write a v).wf = true :=
  Memory.risesFrom_write v h (Nat.zero_le a) ha

/-- A store keeps the canonical form. -/
theorem Memory.storeBytes_wf {m : Memory} (skip : List Nat) (A : Addr) (v : BitVec 64) (n : Nat) (h : m.wf = true) :
    (Memory.storeBytes skip A v n m).wf = true := by
  induction n with
  | zero => exact h
  | succ n ih =>
    simp only [Memory.storeBytes]
    split
    · exact ih
    · exact Memory.write_wf _ ih (byteAddr A n).isLt

/-- A store cut short keeps the canonical form. -/
theorem Memory.landBytes_wf {m : Memory} (skip : List Nat) (A : Addr) (v : BitVec 64) (d n : Nat) (h : m.wf = true) :
    (Memory.landBytes skip A v d n m).wf = true := by
  induction n with
  | zero => exact h
  | succ n ih =>
    simp only [Memory.landBytes]
    split
    · exact Memory.write_wf _ ih (byteAddr A n).isLt
    · exact ih

/-- Below the first address nothing is listed. -/
theorem Memory.lookup_none_below {m : Memory} {lo x : Nat} (h : m.risesFrom lo = true) (hx : x < lo) :
    m.lookup x = none := by
  induction m generalizing lo with
  | nil => rfl
  | cons cell m ih =>
    obtain ⟨b, u⟩ := cell
    simp only [Memory.risesFrom, Bool.and_eq_true, decide_eq_true_eq] at h
    simp only [Memory.lookup]
    rw [if_neg (by omega)]
    exact ih h.2 (by omega)

/-- Memories that list the same bytes are the same data, from any lower bound. -/
theorem Memory.ext_of_risesFrom {m m' : Memory} {lo : Nat} (h : m.risesFrom lo = true) (h' : m'.risesFrom lo = true)
    (e : ∀ x, m.lookup x = m'.lookup x) : m = m' := by
  induction m generalizing m' lo with
  | nil =>
    cases m' with
    | nil => rfl
    | cons cell m' => have := e cell.1; simp [Memory.lookup] at this
  | cons cell m ih =>
    obtain ⟨b, u⟩ := cell
    cases m' with
    | nil => have := e b; simp [Memory.lookup] at this
    | cons cell' m' =>
      obtain ⟨b', u'⟩ := cell'
      simp only [Memory.risesFrom, Bool.and_eq_true, decide_eq_true_eq] at h h'
      have hb : b = b' := by
        rcases Nat.lt_trichotomy b b' with hlt | heq | hgt
        · have := e b
          simp only [Memory.lookup, if_true] at this
          rw [if_neg (by omega), Memory.lookup_none_below h'.2 (by omega)] at this
          simp at this
        · exact heq
        · have := e b'
          simp only [Memory.lookup, if_true] at this
          rw [if_neg (by omega), Memory.lookup_none_below h.2 (by omega)] at this
          simp at this
      subst hb
      have hu : u = u' := by simpa [Memory.lookup] using e b
      subst hu
      refine congrArg _ (ih h.2 h'.2 fun x => ?_)
      by_cases hx : x = b
      · subst hx
        rw [Memory.lookup_none_below h.2 (by omega), Memory.lookup_none_below h'.2 (by omega)]
      · simpa [Memory.lookup, hx] using e x

/-- Canonical memories that list the same bytes are the same data. -/
theorem Memory.ext_of_wf {m m' : Memory} (h : m.wf = true) (h' : m'.wf = true)
    (e : ∀ x, m.lookup x = m'.lookup x) : m = m' :=
  Memory.ext_of_risesFrom h h' e

/-- Which byte of a store from `A` an address is. -/
theorem byteAddr_eq_iff (A x : Addr) {k : Nat} (hk : k < 2 ^ 64) : x = byteAddr A k ↔ (x - A).toNat = k := by
  unfold byteAddr
  constructor
  · rintro rfl
    have : A + BitVec.ofNat 64 k - A = BitVec.ofNat 64 k := by
      rw [BitVec.add_comm, BitVec.add_sub_cancel]
    rw [this, BitVec.toNat_ofNat, Nat.mod_eq_of_lt hk]
  · intro h
    rw [← h, BitVec.ofNat_toNat, BitVec.setWidth_eq, BitVec.add_comm, BitVec.sub_add_cancel]

/-- The bytes from `A` are those whose distance from `A` is below the length (at most the whole space). -/
theorem inBytes_iff (A x : Addr) {n : Nat} (hn : n ≤ 2 ^ 64) : inBytes A n x ↔ (x - A).toNat < n := by
  constructor
  · rintro ⟨k, hk, hx⟩
    rwa [(byteAddr_eq_iff A x (by omega)).1 hx]
  · intro h
    exact ⟨(x - A).toNat, h, (byteAddr_eq_iff A x (by omega)).2 rfl⟩

/-- What a store does to every byte (R44): those of its bytes not already taken are written, no other changes. -/
theorem Memory.lookup_storeBytes (m : Memory) (skip : List Nat) (A : Addr) (v : BitVec 64) {n : Nat} (hn : n ≤ 2 ^ 64)
    (x : Addr) :
    (Memory.storeBytes skip A v n m).lookup x.toNat =
      if (x - A).toNat < n ∧ (x - A).toNat ∉ skip then some (byteOf v (x - A).toNat) else m.lookup x.toNat := by
  induction n with
  | zero => simp [Memory.storeBytes]
  | succ n ih =>
    have ih := ih (by omega)
    have hx := byteAddr_eq_iff A x (k := n) (by omega)
    have hnat : x.toNat = (byteAddr A n).toNat ↔ (x - A).toNat = n := by
      rw [← hx]; exact ⟨BitVec.eq_of_toNat_eq, congrArg _⟩
    generalize (x - A).toNat = d at ih hx hnat ⊢
    simp only [Memory.storeBytes]
    by_cases hs : n ∈ skip
    · rw [if_pos (by simpa using hs), ih]
      by_cases hd : d = n
      · simp [hd, hs]
      · have : d < n + 1 ↔ d < n := by omega
        simp only [this]
    · rw [if_neg (by simpa using hs), Memory.lookup_write, ih]
      by_cases hd : d = n
      · simp [hnat, hd, hs]
      · have : d < n + 1 ↔ d < n := by omega
        simp only [hnat, hd, this, if_false]

/-- The sizes of a store. -/
theorem Width.bytes_le (w : Width) : w.bytes ≤ 8 := by cases w <;> decide

/-- What performing a transaction does to every byte. -/
theorem State.byteAt_perform (s : State) (t : Txn) (x : Addr) :
    (s.perform t).byteAt x =
      if (x - t.addr).toNat < t.size.bytes ∧ (x - t.addr).toNat ∉ s.landed then byteOf t.value (x - t.addr).toNat
      else s.byteAt x := by
  have := Width.bytes_le t.size
  simp only [State.byteAt, State.perform_mem]
  rw [Memory.lookup_storeBytes _ _ _ _ (by omega)]
  split <;> rfl

/-- Performing a transaction leaves every byte outside it as it was. -/
theorem State.byteAt_perform_outside (s : State) (t : Txn) {x : Addr} (h : ¬inBytes t.addr t.size.bytes x) :
    (s.perform t).byteAt x = s.byteAt x := by
  have := Width.bytes_le t.size
  rw [inBytes_iff _ _ (by omega)] at h
  rw [State.byteAt_perform, if_neg (fun hc => h hc.1)]

/-- A byte depends on memory alone. -/
theorem State.byteAt_congr {s t : State} (h : s.mem = t.mem) (x : Addr) : s.byteAt x = t.byteAt x := by
  simp [State.byteAt, h]

/-- Above the address space nothing is listed. -/
theorem Memory.lookup_none_above {m : Memory} {lo x : Nat} (h : m.risesFrom lo = true) (hx : 2 ^ Config.addressBits ≤ x) :
    m.lookup x = none := by
  induction m generalizing lo with
  | nil => rfl
  | cons cell m ih =>
    obtain ⟨b, u⟩ := cell
    simp only [Memory.risesFrom, Bool.and_eq_true, decide_eq_true_eq] at h
    simp only [Memory.lookup]
    rw [if_neg (by omega)]
    exact ih h.2

/-- Byte 0 of an address is the address. -/
@[simp] theorem byteAddr_zero (A : Addr) : byteAddr A 0 = A := by simp [byteAddr]

/-- The distance of byte `k` from its address. -/
theorem byteAddr_sub (A : Addr) {k : Nat} (hk : k < 2 ^ 64) : (byteAddr A k - A).toNat = k :=
  (byteAddr_eq_iff A _ hk).1 rfl

/-- The bytes of a store are at different addresses. -/
theorem byteAddr_inj (A : Addr) {j k : Nat} (hj : j < 2 ^ 64) (hk : k < 2 ^ 64) (h : byteAddr A j = byteAddr A k) :
    j = k := by
  have h1 := byteAddr_sub A hj
  rw [h, byteAddr_sub A hk] at h1
  exact h1.symm

/-- A single byte. -/
theorem inBytes_one (A x : Addr) : inBytes A 1 x ↔ x = A := by
  constructor
  · rintro ⟨k, hk, hx⟩
    obtain rfl : k = 0 := by omega
    simpa using hx
  · rintro rfl
    exact ⟨0, Nat.zero_lt_one, by simp⟩

/-- Byte `k` of a value as a number. -/
theorem byteOf_eq (v : BitVec 64) (k : Nat) : byteOf v k = BitVec.ofNat 8 (v.toNat / 256 ^ k) := by
  apply BitVec.eq_of_toNat_eq
  simp only [byteOf, BitVec.extractLsb'_toNat, Nat.shiftRight_eq_div_pow, BitVec.toNat_ofNat]
  rw [show (256 : Nat) = 2 ^ 8 from rfl, ← Nat.pow_mul]

/-- What an unanswered store does to a byte when reset arrives: it keeps its value, or takes the store's (R201). -/
theorem Memory.lookup_landBytes (m : Memory) (skip : List Nat) (A : Addr) (v : BitVec 64) (draw n : Nat) (x : Addr) :
    (Memory.landBytes skip A v draw n m).lookup x.toNat = m.lookup x.toNat ∨
      ∃ k, k < n ∧ x = byteAddr A k ∧ (Memory.landBytes skip A v draw n m).lookup x.toNat = some (byteOf v k) := by
  induction n with
  | zero => exact .inl rfl
  | succ n ih =>
    have carry : (Memory.landBytes skip A v draw n m).lookup x.toNat = m.lookup x.toNat ∨
        ∃ k, k < n + 1 ∧ x = byteAddr A k ∧
          (Memory.landBytes skip A v draw n m).lookup x.toNat = some (byteOf v k) :=
      ih.imp_right fun ⟨k, hk, h⟩ => ⟨k, by omega, h⟩
    simp only [Memory.landBytes]
    split
    · rw [Memory.lookup_write]
      by_cases hx : x.toNat = (byteAddr A n).toNat
      · exact .inr ⟨n, by omega, BitVec.eq_of_toNat_eq hx, if_pos hx⟩
      · rw [if_neg hx]
        exact carry
    · exact carry

/-- A store by another agent: its bytes, and no other. -/
theorem State.byteAt_otherWrite (s : State) (size : Width) (A : Addr) (v : BitVec 64) (x : Addr) :
    (s.otherWrite size A v).byteAt x =
      if (x - A).toNat < size.bytes then byteOf v (x - A).toNat else s.byteAt x := by
  have := Width.bytes_le size
  simp only [State.byteAt, State.otherWrite]
  rw [Memory.lookup_storeBytes _ _ _ _ (by omega)]
  split <;> simp_all

/-- A fault changes no byte. -/
theorem State.byteAt_raiseMemFault (s : State) (A x : Addr) : (s.raiseMemFault A).byteAt x = s.byteAt x := by
  simp [State.byteAt, State.raiseMemFault]

end Sys2Proof.Machine
end

