-- ==== Sys2Proof/Laws/Syntax.lean ====
section
/-! SUPPORT. What the checks of WellFormed.lean say as propositions. -/

namespace Sys2Proof

/-- An operand fits when its number is below `2^W`. -/
theorem operandFits_iff (w : Width) (slot : Slot) : operandFits w slot = true ↔ slot.toNat < 2 ^ w.bits := by
  simp only [operandFits, decide_eq_true_eq]

/-- A carry-in slot fits when it holds 0 or 1. -/
theorem carryFits_iff (c : Slot) : carryFits c = true ↔ c.toNat < 2 := by
  simp only [carryFits, decide_eq_true_eq]

end Sys2Proof
end

