-- ==== Sys2Proof/Laws/PerInstr.lean ====
section
/-! SUPPORT. Statements made command by command: a descriptor selects command X exactly by its low byte
(spec/30_encoding.md R74). -/

namespace Sys2Proof.Laws.Encoding

/-- The `cmd` column of the table of R74, transcribed a second time. -/
def tableCode : Instr → Nat
  | .uaddo8 .. => 0x10
  | .uaddo16 .. => 0x11
  | .uaddo32 .. => 0x12
  | .uaddo64 .. => 0x13
  | .uaddc8 .. => 0x20
  | .uaddc16 .. => 0x21
  | .uaddc32 .. => 0x22
  | .uaddc64 .. => 0x23
  | .zfill .. => 0x30

/-- The low byte of an encoded command, `D & 0xFF`, is its code in the table. -/
def Statement (i : Instr) : Prop := (encode i).toNat % 256 = tableCode i

/-- The low byte of a descriptor is its `cmd` (R71). -/
theorem toBits_mod (d : Descriptor) : d.toBits.toNat % 256 = d.cmd.toNat := by
  have h : d.toBits.setWidth 8 = d.cmd := BitVec.setWidth_append_eq_right
  simpa using congrArg BitVec.toNat h

theorem uaddo8 (a b c : Slot) (addr : Addr) : Statement (.uaddo8 a b c addr) := toBits_mod ⟨0x10, a, b, c, addr⟩
theorem uaddo16 (a b c : Slot) (addr : Addr) : Statement (.uaddo16 a b c addr) := toBits_mod ⟨0x11, a, b, c, addr⟩
theorem uaddo32 (a b c : Slot) (addr : Addr) : Statement (.uaddo32 a b c addr) := toBits_mod ⟨0x12, a, b, c, addr⟩
theorem uaddo64 (a b c : Slot) (addr : Addr) : Statement (.uaddo64 a b c addr) := toBits_mod ⟨0x13, a, b, c, addr⟩
theorem uaddc8 (a b c : Slot) (addr : Addr) : Statement (.uaddc8 a b c addr) := toBits_mod ⟨0x20, a, b, c, addr⟩
theorem uaddc16 (a b c : Slot) (addr : Addr) : Statement (.uaddc16 a b c addr) := toBits_mod ⟨0x21, a, b, c, addr⟩
theorem uaddc32 (a b c : Slot) (addr : Addr) : Statement (.uaddc32 a b c addr) := toBits_mod ⟨0x22, a, b, c, addr⟩
theorem uaddc64 (a b c : Slot) (addr : Addr) : Statement (.uaddc64 a b c addr) := toBits_mod ⟨0x23, a, b, c, addr⟩
theorem zfill (a b c : Slot) (addr : Addr) : Statement (.zfill a b c addr) := toBits_mod ⟨0x30, a, b, c, addr⟩

end Sys2Proof.Laws.Encoding
end

