-- ==== Sys2Proof/Laws/Run.lean ====
section
/-! SUPPORT. Running a command: every meaning is its plan run from where it stands, and all that a run can do. -/

namespace Sys2Proof.Machine

/-- Every command's meaning is its plan, run from where the command stands. -/
theorem exec_eq_runPlan (i : Instr) (s : State) : exec i s = .next (s.runPlan (planOf i)) := by
  cases i <;> rfl

/-- A plan carries the descriptor of its command. -/
theorem planOf_desc (i : Instr) : (planOf i).desc = i.descriptor := by cases i <;> rfl

/-! What performing transactions leaves alone. -/

@[simp] theorem Plan.performed_zero (p : Plan) (k : Nat) (s : State) : p.performed k 0 s = s := rfl

theorem Plan.performed_succ (p : Plan) (k m : Nat) (s : State) :
    p.performed k (m + 1) s = (p.performed k m s).perform (p.txn (k + m)) := rfl

theorem Plan.performed_succ' (p : Plan) (k m : Nat) (s : State) :
    p.performed k (m + 1) s = p.performed (k + 1) m (s.perform (p.txn k)) := by
  induction m with
  | zero => rfl
  | succ m ih => rw [Plan.performed_succ, ih, Plan.performed_succ, show k + (m + 1) = k + 1 + m by omega]

/-- Performing transactions changes memory and the memory port, nothing else. -/
theorem Plan.performed_frame (p : Plan) (k m : Nat) (s : State) :
    (p.performed k m s).inflight = s.inflight ∧ (p.performed k m s).request = s.request ∧
    (p.performed k m s).response = s.response ∧ (p.performed k m s).refusing = s.refusing ∧
    (p.performed k m s).codes = s.codes ∧ (p.performed k m s).draws = s.draws ∧
    (p.performed k m s).agenda = s.agenda ∧ (p.performed k m s).faultSeen = s.faultSeen := by
  induction m with
  | zero => simp
  | succ m ih => simpa [Plan.performed_succ] using ih

@[simp] theorem Plan.performed_admits (p : Plan) (k m : Nat) (s : State) (A : Addr) (n : Width) :
    (p.performed k m s).admits A n = s.admits A n := by
  simp [State.admits, (p.performed_frame k m s).2.2.2.1]

@[simp] theorem Plan.performed_nextCode (p : Plan) (k m : Nat) (s : State) :
    (p.performed k m s).nextCode = s.nextCode := by
  simp [State.nextCode, (p.performed_frame k m s).2.2.2.2.1, (p.performed_frame k m s).2.2.2.2.2.1]

/-- Once a transaction has been performed, none of its bytes is still to come. -/
theorem Plan.performed_landed {p : Plan} {k m : Nat} {s : State} (h : s.landed = []) : (p.performed k m s).landed = [] := by
  cases m with
  | zero => exact h
  | succ m => rfl

/-- Performing transactions keeps memory canonical. -/
theorem Plan.performed_wf {p : Plan} {k : Nat} (m : Nat) {s : State} (h : s.mem.wf = true) :
    (p.performed k m s).mem.wf = true := by
  induction m with
  | zero => exact h
  | succ m ih => exact Memory.storeBytes_wf _ _ _ _ ih

/-- Performing transactions changes no byte outside them. -/
theorem Plan.byteAt_performed_outside {p : Plan} {k m : Nat} {s : State} {x : Addr}
    (h : ∀ j, j < m → ¬inBytes (p.txn (k + j)).addr (p.txn (k + j)).size.bytes x) :
    (p.performed k m s).byteAt x = s.byteAt x := by
  induction m with
  | zero => rfl
  | succ m ih =>
    rw [Plan.performed_succ, State.byteAt_perform_outside _ _ (h m (by omega)), ih fun j hj => h j (by omega)]

/-- All that up to `n` moves of a command can do, from `k` transactions performed: some `m` further transactions are
accepted and performed, and then the instance pauses, or meets a refusal, or responds. -/
theorem State.advance_cases (p : Plan) (n k : Nat) (s : State) :
    ∃ m, (∀ j, j < m → k + j < p.count ∧ s.admitsTxn p (k + j)) ∧
      ((m = n ∧ s.advance p n k = (p.performed k m s).pause p (k + m)) ∨
       (m < n ∧ k + m < p.count ∧ ¬s.admitsTxn p (k + m) ∧
          s.advance p n k = (p.performed k m s).raiseMemFault (p.txn (k + m)).addr) ∨
       (m < n ∧ p.count ≤ k + m ∧ s.advance p n k = (p.performed k m s).respond p.final)) := by
  induction n generalizing k s with
  | zero => exact ⟨0, by simp, .inl ⟨rfl, rfl⟩⟩
  | succ n ih =>
    by_cases hk : k < p.count
    · by_cases ha : s.admits (p.txn k).addr (p.txn k).size = true
      · have hstep : s.advance p (n + 1) k = (s.perform (p.txn k)).advance p n (k + 1) := by
          simp [State.advance, hk, ha]
        obtain ⟨m, hm, hc⟩ := ih (k + 1) (s.perform (p.txn k))
        refine ⟨m + 1, fun j hj => ?_, ?_⟩
        · cases j with
          | zero => exact ⟨hk, ha⟩
          | succ j =>
            have := hm j (by omega)
            rw [show k + (j + 1) = k + 1 + j by omega]
            exact this
        · rw [hstep, Plan.performed_succ', show k + (m + 1) = k + 1 + m by omega]
          rcases hc with ⟨h1, h2⟩ | ⟨h1, h2, h3, h4⟩ | ⟨h1, h2, h3⟩
          · exact .inl ⟨by omega, h2⟩
          · exact .inr (.inl ⟨by omega, h2, h3, h4⟩)
          · exact .inr (.inr ⟨by omega, h2, h3⟩)
      · refine ⟨0, by simp, .inr (.inl ⟨by omega, hk, ha, ?_⟩)⟩
        simp [State.advance, hk, ha]
    · refine ⟨0, by simp, .inr (.inr ⟨by omega, by omega, ?_⟩)⟩
      simp [State.advance, hk]

/-- A command whose transactions are all accepted, undisturbed: every one is performed, and it responds. -/
theorem State.runPlan_completes {p : Plan} {s : State} (hb : s.Begins)
    (ha : ∀ k, k < p.count → s.admitsTxn p k) : s.runPlan p = (p.performed 0 p.count s).respond p.final := by
  obtain ⟨hp, _, hq⟩ := hb
  unfold State.runPlan
  rw [State.endTurn_of_quota_none hq, hp]
  obtain ⟨m, hm, hc⟩ := State.advance_cases p (s.fuel p) 0 s
  have hf : s.fuel p = p.count + 1 := by simp [State.fuel, hq, hp]
  have hle : m ≤ p.count := by
    by_contra hcon
    have := (hm p.count (by omega)).1
    omega
  rcases hc with ⟨h1, _⟩ | ⟨_, h2, h3, _⟩ | ⟨_, h2, h3⟩
  · omega
  · exact absurd (ha _ h2) h3
  · have : m = p.count := by omega
    subst this
    exact h3

/-- A command whose transaction `k` is the first refused, undisturbed: those before it are performed, and it raises the
memory fault. -/
theorem State.runPlan_faults {p : Plan} {s : State} {k : Nat} (hb : s.Begins) (hk : k < p.count)
    (ha : ∀ j, j < k → s.admitsTxn p j) (hr : ¬s.admitsTxn p k) :
    s.runPlan p = (p.performed 0 k s).raiseMemFault (p.txn k).addr := by
  obtain ⟨hp, _, hq⟩ := hb
  unfold State.runPlan
  rw [State.endTurn_of_quota_none hq, hp]
  obtain ⟨m, hm, hc⟩ := State.advance_cases p (s.fuel p) 0 s
  have hf : s.fuel p = p.count + 1 := by simp [State.fuel, hq, hp]
  simp only [Nat.zero_add] at hm hc
  have hle : m ≤ k := by
    by_contra hcon
    exact hr (hm k (by omega)).2
  rcases hc with ⟨h1, _⟩ | ⟨_, _, h3, h4⟩ | ⟨_, h2, _⟩
  · omega
  · have : m = k := by
      by_contra hne
      exact h3 (ha m (by omega))
    subst this
    exact h4
  · omega

/-- The moves an undisturbed command makes. -/
theorem State.fuel_of_quota_none {p : Plan} {s : State} (h : s.quota = none) : s.fuel p = p.count - s.answered + 1 := by
  simp [State.fuel, h]

/-- All that running a command can do, from any state it stands in: from the transactions answered, some `m` further transactions are
accepted and performed, and then the instance pauses, or meets a refusal, or responds. -/
theorem State.runPlan_cases (p : Plan) (s : State) :
    ∃ m, (∀ j, j < m → s.answered + j < p.count ∧ s.admitsTxn p (s.answered + j)) ∧
      ((m = s.fuel p ∧ s.runPlan p = (p.performed s.answered m s.endTurn).pause p (s.answered + m)) ∨
       (m < s.fuel p ∧ s.answered + m < p.count ∧ ¬s.admitsTxn p (s.answered + m) ∧
          s.runPlan p = (p.performed s.answered m s.endTurn).raiseMemFault (p.txn (s.answered + m)).addr) ∨
       (m < s.fuel p ∧ p.count ≤ s.answered + m ∧
          s.runPlan p = (p.performed s.answered m s.endTurn).respond p.final)) := by
  simpa [State.admitsTxn, State.runPlan] using State.advance_cases p (s.fuel p) s.answered s.endTurn

/-- How running a command leaves the instance: BUSY, only where its turn is limited, with its own descriptor; or IDLE with a
response, its plan's or the memory fault of one of its refused transactions. -/
theorem State.runPlan_ends (p : Plan) (s : State) :
    (s.quota.isSome = true ∧ ∃ k, (s.runPlan p).inflight = some ⟨p.desc, k⟩) ∨
    ((s.runPlan p).inflight = none ∧ (s.runPlan p).port = none ∧
      ∃ r, (s.runPlan p).response = some r ∧
        (r = p.final ∨ (r.status = .memfault ∧ ∃ k, k < p.count ∧ ¬s.admitsTxn p k ∧ r.value = (p.txn k).addr))) := by
  obtain ⟨m, hm, hc⟩ := s.runPlan_cases p
  rcases hc with ⟨hf, h⟩ | ⟨-, hk, hr, h⟩ | ⟨-, -, h⟩ <;> rw [h]
  · refine .inl ⟨?_, _, rfl⟩
    by_contra hq
    rw [Bool.not_eq_true, Option.isSome_eq_false_iff, Option.isNone_iff_eq_none] at hq
    rw [State.fuel_of_quota_none hq] at hf
    have := (hm (m - 1) (by omega)).1
    omega
  · exact .inr ⟨rfl, rfl, _, rfl, .inr ⟨rfl, _, hk, hr, rfl⟩⟩
  · exact .inr ⟨rfl, rfl, _, rfl, .inl rfl⟩

/-- Running a command takes from the agenda the turn it ends, and nothing from around the instance. -/
theorem State.runPlan_frame (p : Plan) (s : State) :
    (s.runPlan p).agenda = s.endTurn.agenda ∧ (s.runPlan p).request = s.request ∧
    (s.runPlan p).refusing = s.refusing := by
  obtain ⟨m, -, hc⟩ := s.runPlan_cases p
  obtain ⟨-, hq, -, hr, -, -, ha, -⟩ := p.performed_frame s.answered m s.endTurn
  rcases hc with ⟨-, h⟩ | ⟨-, -, -, h⟩ | ⟨-, -, h⟩ <;> rw [h] <;> simp [State.raiseMemFault, hq, hr, ha]

/-- The code of the next refusal depends on the platform's list and the draws alone. -/
theorem State.useCode_congr {s t : State} (hc : s.codes = t.codes) (hd : s.draws = t.draws) :
    s.useCode.codes = t.useCode.codes ∧ s.useCode.draws = t.useCode.draws ∧ s.nextCode = t.nextCode := by
  unfold State.useCode State.nextCode
  rw [hc, hd]
  split <;> simp_all

end Sys2Proof.Machine
end

