-- ==== Sys2Proof/Laws/Step.lean ====
section
/-! SUPPORT. What the decoder reads, what the instance's turn does with it, and what each move of another agent leaves
alone. -/

namespace Sys2Proof.Machine

/-- The codes of the three families, each checked on all 256 values of `cmd`. -/
theorem cmd_of_fields (cmd : BitVec 8) :
    (cmdFamily cmd = 1 → cmdReserved cmd = 0 → cmd = 0x10 ∨ cmd = 0x11 ∨ cmd = 0x12 ∨ cmd = 0x13) ∧
    (cmdFamily cmd = 2 → cmdReserved cmd = 0 → cmd = 0x20 ∨ cmd = 0x21 ∨ cmd = 0x22 ∨ cmd = 0x23) ∧
    (cmdFamily cmd = 3 → cmdReserved cmd = 0 → cmdWidthCode cmd = 0 → cmd = 0x30) := by
  revert cmd
  decide

/-- A command that the decoder reads has the descriptor it was read from. -/
theorem descriptor_of_decode {d : Descriptor} {i : Instr} (h : decode d = .instr i) : i.descriptor = d := by
  obtain ⟨cmd, a, b, c, addr⟩ := d
  obtain ⟨h1, h2, h3⟩ := cmd_of_fields cmd
  simp only [decode] at h
  repeat' split at h
  all_goals first
    | (injection h with h; subst h; rcases h1 ‹_› ‹_› with rfl | rfl | rfl | rfl <;> rfl)
    | (injection h with h; subst h; rcases h2 ‹_› ‹_› with rfl | rfl | rfl | rfl <;> rfl)
    | (injection h with h; subst h; rename_i hz; rw [h3 ‹_› hz.1 hz.2]; rfl)
    | cases h

/-- The plan of a descriptor carries that descriptor. -/
theorem planOfDescriptor_desc (d : Descriptor) : (planOfDescriptor d).desc = d := by
  unfold planOfDescriptor
  split
  · rename_i i h
    rw [planOf_desc, descriptor_of_decode h]
  · rfl

/-- Serving a descriptor is running its plan, reserved codes included. -/
theorem serve_eq_runPlan (d : Descriptor) (s : State) : serve d s = .next (s.runPlan (planOfDescriptor d)) := by
  unfold serve planOfDescriptor
  cases decode d with
  | instr i => exact exec_eq_runPlan i s
  | reserved why cmd => rfl

/-- Where the agenda names no other agent, the step is the instance's turn. -/
theorem step_of_otherMove_none {s : State} (h : s.otherMove = none) : step s = instanceTurn s := by
  simp [step, h]

/-- An empty agenda, or one that names the instance, holds no move of another agent. -/
theorem State.otherMove_none {s : State} (h : s.agenda = [] ∨ ∃ n rest, s.agenda = .run n :: rest) :
    s.otherMove = none := by
  rcases h with h | ⟨n, rest, h⟩ <;> simp [State.otherMove, h]

/-- A byte landing early changes memory, the memory port and `done` alone. -/
theorem State.landByte_frame (k : Nat) (s : State) :
    (s.landByte k).inflight.map InFlight.desc = s.inflight.map InFlight.desc ∧ (s.landByte k).request = s.request ∧
    (s.landByte k).response = s.response ∧ (s.landByte k).refusing = s.refusing ∧
    (s.landByte k).codes = s.codes ∧ (s.landByte k).draws = s.draws ∧ (s.landByte k).agenda = s.agenda ∧
    (s.landByte k).faultSeen = s.faultSeen := by
  simp

/-- A byte landing early keeps memory canonical. -/
theorem State.landByte_wf (k : Nat) {s : State} (h : s.mem.wf = true) : (s.landByte k).mem.wf = true := by
  unfold State.landByte
  split
  · split
    · exact Memory.write_wf _ h (BitVec.isLt _)
    · exact h
  · exact h

/-- Reset keeps memory canonical. -/
theorem State.settlePort_wf {s : State} (h : s.mem.wf = true) : s.settlePort.mem.wf = true := by
  unfold State.settlePort
  split
  · split
    · exact Memory.landBytes_wf _ _ _ _ _ h
    · exact h
  · exact h

/-- A store by another agent keeps memory canonical. -/
theorem State.otherWrite_wf (size : Width) (A : Addr) (v : BitVec 64) {s : State} (h : s.mem.wf = true) :
    (s.otherWrite size A v).mem.wf = true :=
  Memory.storeBytes_wf _ _ _ _ h

/-- All that a move of another agent can be. -/
theorem State.otherMove_cases {s t : State} (h : s.otherMove = some t) :
    (∃ D rest, s.agenda = .present D :: rest ∧ t = { s with request := some D, agenda := rest }) ∨
    (∃ rest, s.agenda = .take :: rest ∧ t = { s with response := none, agenda := rest }) ∨
    (∃ size A v rest, s.agenda = .write size A v :: rest ∧ t = { s with agenda := rest }.otherWrite size A v) ∨
    (∃ k rest, s.agenda = .land k :: rest ∧ t = { s with agenda := rest }.landByte k) ∨
    (∃ rest, s.agenda = .reset :: rest ∧ t = { s with agenda := rest }.resetInput) := by
  unfold State.otherMove at h
  split at h
  · cases h
  · cases h
  · cases h; exact .inl ⟨_, _, ‹_›, rfl⟩
  · cases h; exact .inr (.inl ⟨_, ‹_›, rfl⟩)
  · cases h; exact .inr (.inr (.inl ⟨_, _, _, _, ‹_›, rfl⟩))
  · cases h; exact .inr (.inr (.inr (.inl ⟨_, _, ‹_›, rfl⟩)))
  · cases h; exact .inr (.inr (.inr (.inr ⟨_, ‹_›, rfl⟩)))

/-- Whether another agent moves is read off the agenda alone. -/
theorem State.otherMove_none_iff {s : State} :
    s.otherMove = none ↔ s.agenda = [] ∨ ∃ n rest, s.agenda = .run n :: rest := by
  refine ⟨fun h => ?_, State.otherMove_none⟩
  unfold State.otherMove at h
  split at h
  · exact .inl ‹_›
  · exact .inr ⟨_, _, ‹_›⟩
  all_goals cases h

/-- Two states with one agenda agree on whether another agent moves. -/
theorem State.otherMove_none_congr {s t : State} (h : t.agenda = s.agenda) : t.otherMove = none ↔ s.otherMove = none := by
  rw [State.otherMove_none_iff, State.otherMove_none_iff, h]

/-- A turn that ends is the head of the agenda; with another agent's move at the head, or with nothing, none ends. -/
theorem State.endTurn_agenda_of_otherMove_none {s : State} (h : s.otherMove = none) : s.endTurn.agenda = s.agenda.tail := by
  unfold State.otherMove at h
  unfold State.endTurn
  split at h <;> simp_all

/-- The step of a BUSY instance that moves runs the plan of its private copy. -/
theorem step_busy {s : State} {f : InFlight} (hi : s.inflight = some f) (h : s.otherMove = none) :
    step s = .next (s.runPlan (planOfDescriptor f.desc)) := by
  simp [step_of_otherMove_none h, instanceTurn, hi, serve_eq_runPlan]

/-- The step of an IDLE instance that moves accepts what is presented and runs its plan. -/
theorem step_accept {s : State} {D : BitVec 264} (hi : s.inflight = none) (hr : s.request = some D)
    (h : s.otherMove = none) :
    step s = .next ((s.accept D).runPlan (planOfDescriptor (Descriptor.ofBits D))) := by
  simp [step_of_otherMove_none h, instanceTurn, hi, hr, serve_eq_runPlan]

/-- Where the agenda names another agent, the step is its move. -/
theorem step_other {s t : State} (h : s.otherMove = some t) : step s = .next t := by
  simp [step, h]

/-- A move of another agent uses up its entry of the agenda. -/
theorem State.otherMove_agenda {s t : State} (h : s.otherMove = some t) : ∃ m, s.agenda = m :: t.agenda := by
  rcases State.otherMove_cases h with ⟨_, _, e, rfl⟩ | ⟨_, e, rfl⟩ | ⟨_, _, _, _, e, rfl⟩ | ⟨_, _, e, rfl⟩ | ⟨_, e, rfl⟩ <;>
    exact ⟨_, by simpa using e⟩

/-- Every step uses up one entry of the agenda, if there is one. -/
theorem step_agenda {s t : State} (h : step s = .next t) : t.agenda = s.agenda.tail := by
  cases ho : s.otherMove with
  | some u =>
    rw [step_other ho] at h
    cases h
    obtain ⟨m, e⟩ := State.otherMove_agenda ho
    simp [e]
  | none =>
    rw [← State.endTurn_agenda_of_otherMove_none ho]
    rw [step_of_otherMove_none ho, instanceTurn] at h
    repeat' split at h
    · rw [serve_eq_runPlan] at h
      cases h
      exact (State.runPlan_frame _ _).1
    · rw [serve_eq_runPlan] at h
      cases h
      rename_i D _
      rw [(State.runPlan_frame _ _).1, State.endTurn_agenda_of_otherMove_none ho]
      exact State.endTurn_agenda_of_otherMove_none (s := s.accept D) ((State.otherMove_none_congr (State.accept_agenda D s)).2 ho)
    · cases h; rfl

/-- What landing a byte early does to the transaction that awaits its answer. -/
theorem State.landByte_of_port {s : State} {p : Pending} (k : Nat) (h : s.port = some p) :
    s.landByte k =
      if (s.admits p.txn.addr p.txn.size && decide (k < p.txn.size.bytes) && !p.landed.contains k) = true then
        { s with
          mem := s.mem.write (byteAddr p.txn.addr k).toNat (byteOf p.txn.value k)
          inflight := s.inflight.map fun f => ⟨f.desc, f.done + performedAhead (some ⟨p.txn, k :: p.landed⟩)⟩
          port := some ⟨p.txn, k :: p.landed⟩ }
      else s := by
  unfold State.landByte
  split
  · rename_i q hq
    rw [h] at hq
    cases hq
    rfl
  · rename_i hq
    rw [h] at hq
    cases hq

/-- A byte landing early answers no transaction. -/
theorem State.landByte_answered (k : Nat) (s : State) : (s.landByte k).answered = s.answered := by
  cases hp : s.port with
  | none => simp [State.landByte, hp]
  | some p =>
    rw [State.landByte_of_port k hp]
    split
    · rename_i hc
      simp only [Bool.and_eq_true, decide_eq_true_eq, Bool.not_eq_true', List.contains_eq_mem,
        decide_eq_false_iff_not] at hc
      cases hi : s.inflight <;>
        simp [State.answered, hi, hp, performedAhead_of_missing hc.1.2 hc.2]
    · rfl

/-- What a move of another agent leaves of the instance: the private copy of the command in flight, the transactions answered
and `admit`, but that reset ends the command with no response. -/
theorem State.otherMove_instance {s t : State} (h : s.otherMove = some t) :
    t.refusing = s.refusing ∧
    ((t.inflight.map InFlight.desc = s.inflight.map InFlight.desc ∧ t.answered = s.answered) ∨
      (Move.reset ∈ s.agenda ∧ t.inflight = none ∧ t.port = none ∧ t.response = none)) := by
  rcases State.otherMove_cases h with ⟨_, _, e, rfl⟩ | ⟨_, e, rfl⟩ | ⟨_, _, _, _, e, rfl⟩ | ⟨k, rest, e, rfl⟩ | ⟨_, e, rfl⟩
  · exact ⟨rfl, .inl ⟨rfl, rfl⟩⟩
  · exact ⟨rfl, .inl ⟨rfl, rfl⟩⟩
  · exact ⟨rfl, .inl ⟨rfl, rfl⟩⟩
  · exact ⟨by simp, .inl ⟨by simp, State.landByte_answered k { s with agenda := rest }⟩⟩
  · exact ⟨by simp, .inr ⟨by simp [e], by simp⟩⟩

/-- A move of another agent that is no reset leaves a byte that no store on the agenda and no transaction awaiting its answer
touches. -/
theorem State.byteAt_otherMove {s t : State} {x : Addr} (h : s.otherMove = some t) (hreset : Move.reset ∉ s.agenda)
    (hwrite : ∀ size A v, Move.write size A v ∈ s.agenda → ¬inBytes A size.bytes x)
    (hport : ∀ p, s.port = some p → ¬inBytes p.txn.addr p.txn.size.bytes x) : t.byteAt x = s.byteAt x := by
  rcases State.otherMove_cases h with ⟨_, _, e, rfl⟩ | ⟨_, e, rfl⟩ | ⟨n, A, v, _, e, rfl⟩ | ⟨k, rest, e, rfl⟩ | ⟨_, e, rfl⟩
  · rfl
  · rfl
  · have hx := hwrite n A v (by simp [e])
    have hn := Width.bytes_le n
    rw [inBytes_iff _ _ (by omega)] at hx
    simp only [State.byteAt, State.otherWrite]
    rw [Memory.lookup_storeBytes _ _ _ _ (by omega), if_neg fun h => hx h.1]
  · rcases hp : s.port with _ | p
    · simp [State.landByte, State.byteAt]
    · have hland := State.landByte_of_port (s := { s with agenda := rest }) k hp
      rw [hp] at hland
      rw [hland]
      split
      · rename_i hc
        simp only [Bool.and_eq_true, decide_eq_true_eq] at hc
        have hx : ¬x.toNat = (byteAddr p.txn.addr k).toNat := fun hx =>
          hport p hp ⟨k, hc.1.2, BitVec.eq_of_toNat_eq hx⟩
        simp only [State.byteAt]
        rw [Memory.lookup_write, if_neg hx]
      · rfl
  · simp [e] at hreset

/-- With nothing on the agenda, a BUSY instance is IDLE after one step. -/
theorem step_busy_undisturbed {s t : State} (ha : s.agenda = []) (hi : s.inflight ≠ none) (h : step s = .next t) :
    t.inflight = none := by
  obtain ⟨f, hf⟩ := Option.ne_none_iff_exists'.1 hi
  rw [step_busy hf (State.otherMove_none (.inl ha))] at h
  cases h
  rcases s.runPlan_ends (planOfDescriptor f.desc) with ⟨hq, -⟩ | ⟨h, -⟩
  · simp [State.quota, ha] at hq
  · exact h

/-- The memory after reset has the canonical form. -/
theorem State.reset_mem_wf : State.reset.mem.wf = true := rfl

end Sys2Proof.Machine
end

