-- ==== Sys2Proof/Laws/Script.lean ====
section
/-! SUPPORT. How the issue of a command ends: one induction for the whole wait, with an invariant of the waiting for each of
its two halves; and what the other agents' moves before a host action leave. -/

namespace Sys2Proof.Machine

/-- What the host makes of an instance that has ended its command in state `t`. -/
def ended (t : State) : IssueEnd :=
  match t.response with
  | some r => .responded t.takeResponse r
  | none => .abandoned t

theorem awaitResponse_idle {s : State} {n : Nat} (hi : s.inflight = none) (hn : 1 ≤ n) : awaitResponse n s = ended s := by
  obtain ⟨n, rfl⟩ : ∃ m, n = m + 1 := ⟨n - 1, by omega⟩
  cases hr : s.response <;> simp [awaitResponse, ended, hi, hr]

/-- Every step has a next state. -/
theorem step_next (s : State) : ∃ t, step s = .next t := by
  cases ho : s.otherMove with
  | some t => exact ⟨t, step_other ho⟩
  | none =>
    cases hi : s.inflight with
    | some f => exact ⟨_, step_busy hi ho⟩
    | none =>
      cases hr : s.request with
      | some D => exact ⟨_, step_accept hi hr ho⟩
      | none => exact ⟨s.endTurn, by simp [step_of_otherMove_none ho, instanceTurn, hi, hr]⟩

/-- The wait for the response: if from every state of `Busy` a step leads to another or to an IDLE state of `End`, the wait
ends in a state of `End`. -/
theorem awaitResponse_ends {Busy End : State → Prop} (hbusy : ∀ s, Busy s → s.inflight ≠ none)
    (hstep : ∀ s t, Busy s → step s = .next t → Busy t ∨ (t.inflight = none ∧ End t)) (n : Nat) :
    ∀ s, Busy s → s.agenda.length + 2 ≤ n → ∃ t, t.inflight = none ∧ End t ∧ awaitResponse n s = ended t := by
  induction n with
  | zero => intro s _ hn; omega
  | succ n ih =>
    intro s hb hn
    obtain ⟨f, hf⟩ := Option.ne_none_iff_exists'.1 (hbusy s hb)
    obtain ⟨t, ht⟩ := step_next s
    have hw : awaitResponse (n + 1) s = awaitResponse n t := by simp [awaitResponse, hf, ht]
    rw [hw]
    rcases hstep s t hb ht with hbt | ⟨hi, he⟩
    · have hne : s.agenda ≠ [] := fun ha => hbusy t hbt (step_busy_undisturbed ha (hbusy s hb) ht)
      have hlen := List.length_pos_iff.2 hne
      exact ih t hbt (by rw [step_agenda ht, List.length_tail]; omega)
    · exact ⟨t, hi, he, awaitResponse_idle hi (by omega)⟩

/-- When the next step accepts. -/
theorem State.acceptsNext_iff {s : State} : s.acceptsNext = true ↔ s.inflight = none ∧ s.otherMove = none := by
  simp [State.acceptsNext, State.ready]

@[simp] theorem State.offer_otherMove_none {D : BitVec 264} {s : State} :
    (s.offer D).otherMove = none ↔ s.otherMove = none :=
  State.otherMove_none_congr rfl

/-- The accepting step runs the plan of the host's descriptor. -/
theorem step_offer_accept {s : State} {D : BitVec 264} (h : s.acceptsNext = true) :
    step (s.offer D) = .next ((s.accept D).runPlan (planOfDescriptor (Descriptor.ofBits D))) :=
  step_accept (s := s.offer D) (D := D) (State.acceptsNext_iff.1 h).1 rfl
    (State.offer_otherMove_none.2 (State.acceptsNext_iff.1 h).2)

/-- A step that does not accept leaves an IDLE instance IDLE. -/
theorem step_idle_not_accepting {s t : State} {D : BitVec 264} (hi : s.inflight = none) (ha : s.acceptsNext = false)
    (h : step (s.offer D) = .next t) : t.inflight = none := by
  have ho : (s.offer D).otherMove ≠ none := fun ho => by
    rw [State.acceptsNext_iff.2 ⟨hi, State.offer_otherMove_none.1 ho⟩] at ha
    cases ha
  obtain ⟨u, hu⟩ := Option.ne_none_iff_exists'.1 ho
  rw [step_other hu] at h
  cases h
  rcases (State.otherMove_instance hu).2 with ⟨h, -⟩ | ⟨-, h, -⟩
  · simpa [hi, State.offer] using h
  · exact h

/-- The issue of a command: `Wait` holds until the step that accepts it, `Busy` while it is in flight, and then `End`. -/
theorem issue_ends {D : BitVec 264} {Wait Busy End : State → Prop}
    (hwait : ∀ s t, Wait s → s.acceptsNext = false → step (s.offer D) = .next t → Wait t)
    (haccept : ∀ s t, Wait s → s.acceptsNext = true → step (s.offer D) = .next t →
      Busy t ∨ (t.inflight = none ∧ End t))
    (hbusy : ∀ s, Busy s → s.inflight ≠ none)
    (hstep : ∀ s t, Busy s → step s = .next t → Busy t ∨ (t.inflight = none ∧ End t))
    {s : State} (hs : Wait s) : ∃ t, t.inflight = none ∧ End t ∧ issue D s = ended t := by
  suffices h : ∀ n s, Wait s → s.agenda.length + (if s.inflight = none then 0 else 1) + 2 ≤ n →
      ∃ t, t.inflight = none ∧ End t ∧ awaitAccept D n s = ended t from
    h _ s hs (by split <;> omega)
  intro n
  induction n with
  | zero => intro s _ hn; omega
  | succ n ih =>
    intro s hs hn
    obtain ⟨t, ht⟩ := step_next (s.offer D)
    have hag : t.agenda.length = s.agenda.length - 1 := by simp [step_agenda ht]
    cases ha : s.acceptsNext with
    | true =>
      have hw : awaitAccept D (n + 1) s = awaitResponse n t := by simp [awaitAccept, ht, ha]
      rw [hw]
      rcases haccept s t hs ha ht with hb | ⟨hi, he⟩
      · have hne : s.agenda ≠ [] := fun hnil => by
          rw [step_offer_accept ha] at ht
          cases ht
          rcases (s.accept D).runPlan_ends (planOfDescriptor (Descriptor.ofBits D)) with ⟨hq, -⟩ | ⟨h, -⟩
          · simp [State.quota, hnil] at hq
          · exact hbusy _ hb h
        have := List.length_pos_iff.2 hne
        exact awaitResponse_ends hbusy hstep n t hb (by omega)
      · exact ⟨t, hi, he, awaitResponse_idle hi (by omega)⟩
    | false =>
      have hw : awaitAccept D (n + 1) s = awaitAccept D n t := by simp [awaitAccept, ht, ha]
      rw [hw]
      refine ih t (hwait s t hs ha ht) ?_
      by_cases hi : s.inflight = none
      · have hne : s.agenda ≠ [] := fun hnil => by
          rw [State.acceptsNext_iff.2 ⟨hi, State.otherMove_none (.inl hnil)⟩] at ha
          cases ha
        have := List.length_pos_iff.2 hne
        rw [if_pos (step_idle_not_accepting hi ha ht)]
        omega
      · rw [if_neg hi] at hn
        by_cases hnil : s.agenda = []
        · rw [if_pos (step_busy_undisturbed (s := s.offer D) hnil hi ht)]
          omega
        · have := List.length_pos_iff.2 hnil
          split <;> omega

/-- What every move of another agent keeps, the moves before a host action keep. -/
theorem State.othersMove_keeps {P : State → Prop} (h : ∀ s t, P s → s.otherMove = some t → P t) (n : Nat) :
    ∀ s, P s → P (s.othersMove n) := by
  induction n with
  | zero => exact fun s hs => hs
  | succ n ih =>
    intro s hs
    rw [State.othersMove]
    split
    · exact ih _ (h _ _ hs ‹_›)
    · exact hs

end Sys2Proof.Machine
end

