-- ==== Sys2Proof/Tests/Slice0.lean ====
section
/-! SUPPORT. The model's own tests. Every expected result is taken from spec/95_test_vectors.md or from a rule's worked
example, named in the test's docstring; then, for each statement that has hypotheses, a witness that meets them. -/

namespace Sys2Proof.Tests

open Sys2Proof Sys2Proof.Machine

set_option exponentiation.threshold 300

/-! ### Helpers -/

/-- An IDLE instance with memory `m`, to which the host presents the descriptor `D`. -/
def presented (m : Memory) (D : BitVec 264) : State := { State.reset with mem := m, request := some D }

/-- The response and the memory of a step's next state. -/
def seen : Host.Outcome State Fault Refusal → Option (Option Response × Memory)
  | .next t => some (t.response, t.mem)
  | _ => none

/-- A response `0 / value / 0`. -/
def okay (value : BitVec 64) : Option Response := some ⟨.ok, value, 0⟩

/-- The memory subsystem of program P4: code 0x07 for a store that covers the byte 0x4002. -/
def p4 (D : BitVec 264) (m : Memory) : State :=
  { presented m D with
    refusing := [(0x4001, 2), (0x4002, 1), (0x4000, 4)]
    codes := [0x07, 0x08] }

/-! ### WellFormed (R80): an ill-formed term for each check -/

theorem test_wellFormed_left : (Instr.uaddo8 0x100 0 0 0).wellFormed = false := by decide
theorem test_wellFormed_right : (Instr.uaddo16 0 0x10000 0 0).wellFormed = false := by decide
theorem test_wellFormed_left32 : (Instr.uaddo32 0x100000000 0 0 0).wellFormed = false := by decide
theorem test_wellFormed_carry : (Instr.uaddc64 0 0 2 0).wellFormed = false := by decide
theorem test_wellFormed_carry_operand : (Instr.uaddc8 0 0x100 1 0).wellFormed = false := by decide
theorem test_wellFormed_zfill_b : (Instr.zfill 0 1 0 0).wellFormed = false := by decide
theorem test_wellFormed_zfill_c : (Instr.zfill 0 0 1 0).wellFormed = false := by decide
theorem test_wellFormed_largest :
    (Instr.uaddo8 0xFF 0xFF 0xFFFFFFFFFFFFFFFF 0xFFFFFFFFFFFFFFFF).wellFormed = true ∧
    (Instr.uaddo64 0xFFFFFFFFFFFFFFFF 0xFFFFFFFFFFFFFFFF 0 0).wellFormed = true ∧
    (Instr.uaddc16 0xFFFF 0xFFFF 1 0).wellFormed = true := by decide

/-! ### Decoding: descriptors printed in 95_test_vectors.md, one for each constructor and the nearest reserved codes -/

/-- O-8a -/
theorem test_decode_uaddo8 :
    decodeBits 0x00000000000010000000000000000001000000000000000A00000000000000FA10 =
      .instr (.uaddo8 250 10 1 0x1000) := by decide
/-- O-16a -/
theorem test_decode_uaddo16 :
    decodeBits 0x000000000000200000000000000000020000000000000101000000000000123411 =
      .instr (.uaddo16 0x1234 0x0101 2 0x2000) := by decide
/-- O-32b -/
theorem test_decode_uaddo32 :
    decodeBits 0x000000000000300000000000000000040000000011111111000000001234567812 =
      .instr (.uaddo32 0x12345678 0x11111111 4 0x3000) := by decide
/-- O-64b -/
theorem test_decode_uaddo64 :
    decodeBits 0x0000000000004000000000000000000811111111111111110123456789ABCDEF13 =
      .instr (.uaddo64 0x0123456789ABCDEF 0x1111111111111111 8 0x4000) := by decide
/-- C-8a -/
theorem test_decode_uaddc8 :
    decodeBits 0x00000000000050000000000000000001000000000000006400000000000000C820 =
      .instr (.uaddc8 200 100 1 0x5000) := by decide
/-- C-16b -/
theorem test_decode_uaddc16 :
    decodeBits 0x000000000000501000000000000000010000000000007FFF000000000000800021 =
      .instr (.uaddc16 0x8000 0x7FFF 1 0x5010) := by decide
/-- C-32a -/
theorem test_decode_uaddc32 :
    decodeBits 0x00000000000050200000000000000001000000007FFFFFFF000000007FFFFFFF22 =
      .instr (.uaddc32 0x7FFFFFFF 0x7FFFFFFF 1 0x5020) := by decide
/-- C-64c -/
theorem test_decode_uaddc64 :
    decodeBits 0x000000000000503000000000000000000000000000000002000000000000000123 =
      .instr (.uaddc64 1 2 0 0x5030) := by decide
/-- Z3 -/
theorem test_decode_zfill :
    decodeBits 0xFFFFFFFFFFFFFFFE00000000000000000000000000000000000000000000000430 =
      .instr (.zfill 4 0 0 0xFFFFFFFFFFFFFFFE) := by decide
/-- I1 to I5 -/
theorem test_decode_reserved :
    decodeBits 0x000000000000100000000000000000030000000000000002000000000000000114 = .reserved .reservedBits 0x14 ∧
    decodeBits 0x000000000000000000000000000000000000000000000000000000000000000000 = .reserved .unknownFamily 0x00 ∧
    decodeBits 0x000000000000100000000000000000000000000000000000000000000000000431 = .reserved .zfillNibble 0x31 ∧
    decodeBits 0xFFFFFFFFFFFFFFFFFFFFFFFFFFFFFFFFFFFFFFFFFFFFFFFFFFFFFFFFFFFFFFFFFF = .reserved .unknownFamily 0xFF ∧
    decodeBits 0x000000000000400000000000000000000000000000000002000000000000000124 = .reserved .reservedBits 0x24 := by
  decide
/-- The edges of the three groups of R76. -/
theorem test_decode_group_edges :
    decodeBits 0x0F = .reserved .unknownFamily 0x0F ∧ decodeBits 0x40 = .reserved .unknownFamily 0x40 ∧
    decodeBits 0x1F = .reserved .reservedBits 0x1F ∧ decodeBits 0x2F = .reserved .reservedBits 0x2F ∧
    decodeBits 0x3F = .reserved .zfillNibble 0x3F := by decide
/-- The encoder writes the descriptor that O-64b and Z1 print. -/
theorem test_encode :
    encode (.uaddo64 0x0123456789ABCDEF 0x1111111111111111 8 0x4000) =
      0x0000000000004000000000000000000811111111111111110123456789ABCDEF13 ∧
    encode (.zfill 16 0 0 0x6000) = 0x000000000000600000000000000000000000000000000000000000000000001030 := by decide
/-- The table's word alone, its slots zero. -/
theorem test_decodeTableWord :
    decodeTableWord 264 0x23 = some (.uaddc64 0 0 0 0) ∧ decodeTableWord 8 0x30 = some (.zfill 0 0 0 0) ∧
    decodeTableWord 264 0x31 = none := by decide

/-! ### The adder (2.1, 2.2, 2.8) -/

/-- Rows of 2.1 with the bit-trick word, N1 and N2: unsigned and not signed overflow. -/
theorem test_addo :
    addo (w := .w8) 0x7F 0x01 = (0x80, false) ∧ addo (w := .w8) 0xFF 0x01 = (0x00, true) ∧
    ovfTrickWord (w := .w8) 0x5B 0xA5 = 0xFF ∧ ovfTrickWord (w := .w8) 0xFA 0x0A = 0xFA ∧
    ovfTrickWord (w := .w16) 0x7FFF 1 = 0x7FFF ∧ ovfTrick (w := .w16) 0x7FFF 1 = false ∧
    addo (w := .w32) 0xFFFFFFFF 0xFFFFFFFF = (0xFFFFFFFE, true) ∧
    ovfWide (w := .w64) 0x8000000000000000 0x8000000000000000 = true ∧
    ovfTrick (w := .w64) 0x8000000000000000 0x8000000000000000 = true := by decide
/-- Rows of 2.2: an overflow from either step. -/
theorem test_addc :
    addc (w := .w8) 0x80 0x7F true = (0x00, true) ∧ addc (w := .w8) 0xFF 0xFF true = (0xFF, true) ∧
    addc (w := .w16) 0xFFFE 0x0000 true = (0xFFFF, false) ∧
    addc (w := .w64) 0xFFFFFFFFFFFFFFFF 0 true = (0, true) := by decide
/-- R152: the 128-bit chain. -/
theorem test_chain :
    chain (w := .w64) [(0xFFFFFFFFFFFFFFFF, 1), (0, 0)] false = ([0, 1], false) := by decide

/-! ### UADDO (2.3) -/

/-- O-8c: bits above 7 are ignored; N4: the response is the address; N6: the flag is 0x01. -/
theorem test_uaddo8 :
    seen (step (presented [(0x1000, 0xFF), (0x1001, 0xFF), (0x1002, 0xFF)]
      0x00000000000010000000000000000001000000000000030A00000000000001FA10)) =
      some (okay 0x1000, [(0x1000, 0x04), (0x1001, 0x01), (0x1002, 0xFF)]) := by decide
/-- O5: the flag address wraps to one byte below the target. -/
theorem test_uaddo8_wrap :
    seen (step (presented [] 0x0000000000000010FFFFFFFFFFFFFFFF0000000000000002000000000000000110)) =
      some (okay 0x10, [(0xF, 0x00), (0x10, 0x03)]) := by decide
/-- O-16a: little-endian. -/
theorem test_uaddo16 :
    seen (step (presented [] 0x000000000000200000000000000000020000000000000101000000000000123411)) =
      some (okay 0x2000, [(0x2000, 0x35), (0x2001, 0x13), (0x2002, 0x00)]) := by decide
/-- O1 and N7: the flag overwrites a byte of the sum. -/
theorem test_uaddo16_overlap :
    seen (step (presented [] 0x000000000000010000000000000000010000000000000101000000000000123411)) =
      some (okay 0x100, [(0x100, 0x35), (0x101, 0x00)]) := by decide
/-- O3: overlap inside a 32-bit sum. -/
theorem test_uaddo32_overlap :
    seen (step (presented [] 0x0000000000000100000000000000000200000000FFFFFFFF00000000FFFFFFFF12)) =
      some (okay 0x100, [(0x100, 0xFE), (0x101, 0xFF), (0x102, 0x01), (0x103, 0xFF)]) := by decide
/-- O4: the sum straddles the top of the address space. -/
theorem test_uaddo32_top :
    seen (step (presented [] 0xFFFFFFFFFFFFFFFE0000000000000012000000001111111100000000AABBCCDD12)) =
      some (okay 0xFFFFFFFFFFFFFFFE,
        [(0x0, 0xCC), (0x1, 0xBB), (0x10, 0x00), (0xFFFFFFFFFFFFFFFE, 0xEE), (0xFFFFFFFFFFFFFFFF, 0xDD)]) := by decide
/-- O-64a: the carry-out of 64 bits. -/
theorem test_uaddo64 :
    seen (step (presented [] 0x000000000000400000000000000000088000000000000001800000000000000013)) =
      some (okay 0x4000, [(0x4000, 0x01), (0x4001, 0), (0x4002, 0), (0x4003, 0), (0x4004, 0), (0x4005, 0), (0x4006, 0),
        (0x4007, 0), (0x4008, 0x01)]) := by decide
/-- O-64b: byte order of eight bytes. -/
theorem test_uaddo64_bytes :
    seen (step (presented [] 0x0000000000004000000000000000000811111111111111110123456789ABCDEF13)) =
      some (okay 0x4000, [(0x4000, 0x00), (0x4001, 0xDF), (0x4002, 0xBC), (0x4003, 0x9A), (0x4004, 0x78),
        (0x4005, 0x56), (0x4006, 0x34), (0x4007, 0x12), (0x4008, 0x00)]) := by decide

/-! ### UADDC (2.4) -/

/-- C-8a and N3: the carry-out is stored, not the sum. -/
theorem test_uaddc8 :
    seen (step (presented [] 0x00000000000050000000000000000001000000000000006400000000000000C820)) =
      some (okay 0x2D, [(0x5000, 0x01)]) := by decide
/-- C3, C4 and N5: only bit 0 of the carry-in counts. -/
theorem test_uaddc8_carry :
    seen (step (presented [] 0x000000000000500000000000000000020000000000000006000000000000000520)) =
      some (okay 0x0B, [(0x5000, 0x00)]) ∧
    seen (step (presented [] 0x000000000000500000000000000000030000000000000006000000000000000520)) =
      some (okay 0x0C, [(0x5000, 0x00)]) := by decide
/-- C-16a: the carry-out takes two bytes. -/
theorem test_uaddc16 :
    seen (step (presented [(0x5010, 0xFF), (0x5011, 0xFF), (0x5012, 0xFF)]
      0x00000000000050100000000000000001000000000000FFFF000000000000FFFF21)) =
      some (okay 0xFFFF, [(0x5010, 0x01), (0x5011, 0x00), (0x5012, 0xFF)]) := by decide
/-- C-32a: no overflow. -/
theorem test_uaddc32 :
    seen (step (presented [(0x5020, 0xFF), (0x5023, 0xFF)]
      0x00000000000050200000000000000001000000007FFFFFFF000000007FFFFFFF22)) =
      some (okay 0xFFFFFFFF, [(0x5020, 0), (0x5021, 0), (0x5022, 0), (0x5023, 0)]) := by decide
/-- C-64b: the largest exact sum. -/
theorem test_uaddc64 :
    seen (step (presented [] 0x00000000000050300000000000000001FFFFFFFFFFFFFFFFFFFFFFFFFFFFFFFF23)) =
      some (okay 0xFFFFFFFFFFFFFFFF, [(0x5030, 0x01), (0x5031, 0), (0x5032, 0), (0x5033, 0), (0x5034, 0), (0x5035, 0),
        (0x5036, 0), (0x5037, 0)]) := by decide

/-! ### ZFILL (2.5) -/

/-- Z3: the region wraps; the bytes beside it stay. -/
theorem test_zfill_wrap :
    seen (step (presented [(0x0, 0xFF), (0x1, 0xFF), (0x2, 0xFF), (0xFFFFFFFFFFFFFFFD, 0xFF)]
      0xFFFFFFFFFFFFFFFE00000000000000000000000000000000000000000000000430)) =
      some (okay 0xFFFFFFFFFFFFFFFE, [(0x0, 0), (0x1, 0), (0x2, 0xFF), (0xFFFFFFFFFFFFFFFD, 0xFF),
        (0xFFFFFFFFFFFFFFFE, 0), (0xFFFFFFFFFFFFFFFF, 0)]) := by decide
/-- Z5: slots b and c are ignored. -/
theorem test_zfill_ignores :
    seen (step (presented [] 0x0000000000006000FFFFFFFFFFFFFFFFFFFFFFFFFFFFFFFF000000000000000130)) =
      some (okay 0x6000, [(0x6000, 0)]) := by decide

/-! ### Faults (program P4, 2.6, 2.7) -/

/-- P4 line 1 and N9: the sum stays, the flag store is refused with its own address. -/
theorem test_fault_flag :
    seen (step (p4 0x000000000000400000000000000000020000000000000002000000000000FFFF11 [])) =
      some (some ⟨.memfault, 0x4002, 0x07⟩, [(0x4000, 0x01), (0x4001, 0x00)]) := by decide
/-- P4 line 2: the sum store is refused whole. -/
theorem test_fault_sum :
    seen (step (p4 0x000000000000400100000000000000040000000000000002000000000000FFFF11 [(0x4001, 0x00)])) =
      some (some ⟨.memfault, 0x4001, 0x07⟩, [(0x4001, 0x00)]) := by decide
/-- P4 line 3: ZFILL stops at the first refused byte. -/
theorem test_fault_zfill :
    seen (step (p4 0x000000000000400000000000000000000000000000000000000000000000000630 [(0x4000, 1), (0x4003, 0xEE)])) =
      some (some ⟨.memfault, 0x4002, 0x07⟩, [(0x4000, 0), (0x4001, 0), (0x4003, 0xEE)]) := by decide
/-- P4 line 4: UADDC's sum is not returned. -/
theorem test_fault_uaddc :
    seen (step (p4 0x000000000000400000000000000000000000000000000002000000000000000122 [])) =
      some (some ⟨.memfault, 0x4000, 0x07⟩, []) := by decide
/-- P4 line 5: a reserved code. -/
theorem test_ill :
    seen (step (p4 0x000000000000400000000000000000000000000000000002000000000000000124 [])) =
      some (some ⟨.ill, 0x24, 0⟩, []) := by decide
/-- P4 line 6 and N8: length 0 succeeds at an unwritable address. -/
theorem test_zfill_zero :
    seen (step (p4 0x000000000000400200000000000000000000000000000000000000000000000030 [])) =
      some (okay 0x4002, []) := by decide
/-- The code is taken from the platform's list, one for each refusal; the fault mark is set (U2). -/
theorem test_fault_mark : ∃ t, step (p4 0x000000000000400000000000000000000000000000000002000000000000000122 []) = .next t ∧
    t.codes = [0x08] ∧ t.faultSeen = true ∧ t.inflight = none := ⟨_, rfl, by decide⟩
/-- The four responses of 2.7. -/
theorem test_response_bits :
    (Response.mk .ok 0x1000 0).toBits = 0x0000000000000004000 ∧ (Response.mk .ok 0x2D 0).toBits = 0x00000000000000000B4 ∧
    (Response.mk .memfault 0x4002 0x07).toBits = 0x01C0000000000010009 ∧
    (Response.mk .ill 0x24 0).toBits = 0x0000000000000000092 ∧ Response.ofBits 3 = none := by decide

/-! ### Assembler (R80, R81) -/

/-- The lines of O-16a and Z1, and the checks of R80. -/
theorem test_assemble :
    assemble ⟨.uaddo 16, [0x1234, 0x0101, 0x2000, 2]⟩ = .instr (.uaddo16 0x1234 0x0101 2 0x2000) ∧
    assemble ⟨.zeroInit, [0x6000, 16]⟩ = .instr (.zfill 16 0 0 0x6000) ∧
    assemble ⟨.uaddWithOverflowAndCarry, [8, 200, 100, 1, 0x5000]⟩ = .instr (.uaddc8 200 100 1 0x5000) ∧
    assemble ⟨.uaddo 24, [1, 2, 3, 4]⟩ = .rejected .badWidth ∧
    assemble ⟨.uaddc 8, [256, 0, 0, 0]⟩ = .rejected .operandTooWide ∧
    assemble ⟨.zfill, [2 ^ 64, 0]⟩ = .rejected .slotTooWide ∧
    assemble ⟨.uaddo 8, [1, 2, 3]⟩ = .rejected .badOperands := by decide

/-! ### Scripts (R11, program P2) -/

/-- P2: the first limb, the carry read back and passed on as the second limb's carry-in. -/
theorem test_script_p2 :
    (match runScript
        [.command (.uaddc 64) [.number 0xFFFFFFFFFFFFFFFF, .number 1, .number 0, .number 0x2000],
         .hostRead .w64 (.number 0x2000),
         .command (.uaddc 64) [.number 0, .number 0, .result 1, .number 0x2000],
         .hostRead .w8 (.number 0x2000)] State.reset [] with
      | .done _ results => results.map LineResult.value
      | _ => []) = [0, 1, 1, 0] := by decide
/-- P3 line 3: the host stores a limb by its own means. -/
theorem test_script_write :
    runLine (.hostWrite .w8 (.number 0x3013) (.result 0)) State.reset [⟨0x02, some .ok⟩] =
      .done { State.reset with mem := [(0x3013, 0x02)] } [⟨0x02, some .ok⟩, ⟨0x02, none⟩] := by decide

/-- A line waits for its own response: another agent's store stands between line 1's response and line 2. -/
theorem test_script_waits :
    (match runScript
        [.command (.uaddo 8) [.number 250, .number 10, .number 0x7000, .number 1],
         .command (.uaddo 8) [.number 1, .number 2, .number 0x4003, .number 1]]
        { State.reset with agenda := [.run 3, .write .w8 0x7002 0x1E, .run 0, .run 1] } [] with
      | .done t results => (results, t.mem, t.inflight, t.agenda)
      | _ => ([], [], none, [.reset])) =
      ([⟨0x7000, some .ok⟩, ⟨0x4003, some .ok⟩],
       [(0x4003, 0x03), (0x4004, 0), (0x7000, 0x04), (0x7001, 0x01), (0x7002, 0x1E)], none, []) := by decide
/-- R201: a command that reset ends never responds, and the next line does not start. -/
theorem test_script_abandoned :
    runScript
        [.command .zfill [.number 0x6000, .number 1], .command .zfill [.number 0x7000, .number 1]]
        { State.reset with agenda := [.run 1, .reset, .take] } [] =
      .abandoned { State.reset with mem := [(0x6000, 0)], agenda := [.take] } [] := by decide
/-- R54: another agent's store on the carry cell comes before the host's read, or after it where a turn stands between. -/
theorem test_script_read_order :
    (match runLine (.hostRead .w8 (.number 0x2000)) { State.reset with agenda := [.write .w8 0x2000 7] } [] with
      | .done _ results => results.map LineResult.value
      | _ => []) = [7] ∧
    (match runLine (.hostRead .w8 (.number 0x2000))
        { State.reset with mem := [(0x2000, 1)], agenda := [.run 0, .write .w8 0x2000 7] } [] with
      | .done _ results => results.map LineResult.value
      | _ => []) = [1] := by decide
/-- R152 with limb 1 paused after its acceptance: its own sum, not limb 0's. -/
theorem test_chain_waits :
    (hostChain .w64 0x2000 [(0xFFFFFFFFFFFFFFFF, 1), (0, 0)] 0
        { State.reset with agenda := [.run 2, .run 0] }).map (fun (vs, c, t) => (vs, c, t.agenda)) =
      some ([0, 1], 0, []) := by decide

/-! ### Agents (program P5) -/

/-- `UADDO.8 250, 10, 0x7000, 1` after its first move: 0x7000 written, the flag store awaiting its answer. -/
def p5 (moves : List Move) : State :=
  { State.reset with
    mem := [(0x7000, 0x04)]
    inflight := some ⟨⟨0x10, 250, 10, 1, 0x7000⟩, 1⟩
    port := some ⟨⟨.w8, 0x7001, 1⟩, []⟩
    agenda := moves }

/-- P5, overlapping: another writer's 0x1E on the flag byte, and the flag store later: 0x01 stays. -/
theorem test_last_writer : ∃ t, step (p5 [.write .w8 0x7001 0x1E]) = .next t ∧
    t.mem = [(0x7000, 0x04), (0x7001, 0x1E)] ∧
    seen (step t) = some (okay 0x7000, [(0x7000, 0x04), (0x7001, 0x01)]) := ⟨_, rfl, by decide⟩
/-- P5, overlapping, the other order: the flag byte has landed, the later 0x1E stays. -/
theorem test_landed_then_written : ∃ t u, step (p5 [.land 0, .write .w8 0x7001 0x1E]) = .next t ∧ step t = .next u ∧
    seen (step u) = some (okay 0x7000, [(0x7000, 0x04), (0x7001, 0x1E)]) := ⟨_, _, rfl, rfl, by decide⟩
/-- R27, R52: with its last byte the flag store has been performed, and `done` is 2 before the answer; the next move
takes that answer and no more. -/
theorem test_done_counts_performed : ∃ t u, step (p5 [.land 0, .run 1]) = .next t ∧ step t = .next u ∧
    t.inflight = some ⟨⟨0x10, 250, 10, 1, 0x7000⟩, 2⟩ ∧ t.port = some ⟨⟨.w8, 0x7001, 1⟩, [0]⟩ ∧ t.answered = 1 ∧
    u.inflight = some ⟨⟨0x10, 250, 10, 1, 0x7000⟩, 2⟩ ∧ u.port = none ∧ u.response = none := ⟨_, _, rfl, rfl, by decide⟩
/-- R200, R201: reset with nothing pending on the port abandons the command and leaves memory. -/
theorem test_reset : ∃ t, step { p5 [.reset] with port := none } = .next t ∧
    t.inflight = none ∧ t.response = none ∧ t.mem = [(0x7000, 0x04)] := ⟨_, rfl, by decide⟩

/-- The host's entry: the table's word of UADDC.64, slots zero, is the first command after reset. -/
theorem test_withFetchWord :
    seen (step (State.reset.withFetchWord 264 0x23)) =
      some (okay 0, [(0, 0), (1, 0), (2, 0), (3, 0), (4, 0), (5, 0), (6, 0), (7, 0)]) ∧
    seen (step (State.reset.withFetchWord 8 0x30)) = some (okay 0, []) := by decide

/-! ### Witnesses: for each statement with hypotheses, a state and operands that meet them all together -/

/-- A state at which a command begins, undisturbed, `admit` true everywhere; some memory and an old response. -/
def ready : State := { State.reset with mem := [(0x1000, 0xFF)], response := okay 7 }

/-- As `ready`, but the stores of `R` are refused. -/
def refusingAt (R : List (Nat × Nat)) : State := { ready with refusing := R }

theorem ready_begins : ready.Begins := ⟨rfl, rfl, rfl⟩
theorem refusingAt_begins (R : List (Nat × Nat)) : (refusingAt R).Begins := ⟨rfl, rfl, rfl⟩

theorem witness_EncodeInvertsDecode :
    decodeBits 0x000000000000600000000000000000000000000000000000000000000000001030 = .instr (.zfill 16 0 0 0x6000) := by
  decide

/-- For each clause slots that differ in ignored bits alone. -/
theorem witness_IgnoredBitsHaveNoEffect :
    ready.Begins ∧ SameOperands .w8 0x1FA 0x30A 0xFA 0x0A ∧ SameOperands .w64 1 2 1 2 ∧
    (3 : Slot).toNat % 2 = (0xFFFFFFFFFFFFFFFF : Slot).toNat % 2 ∧
    (Descriptor.mk 0x14 0 0 0 0).cmd = (Descriptor.mk 0x14 1 2 3 4).cmd :=
  ⟨ready_begins, by unfold SameOperands; decide, by unfold SameOperands; decide, by decide, rfl⟩

theorem witness_AssemblerWritesWellFormed :
    assemble ⟨.uaddc 8, [255, 255, 3, 0x5000]⟩ = .instr (.uaddc8 255 255 1 0x5000) ∧
    (Instr.uaddc8 255 255 1 0x5000).wellFormed = true := by decide

/-- For each width: the flag just above the sum, and the flag wrapping to one byte below the target. -/
theorem witness_UaddoWholeEffect :
    ready.Begins ∧ (∀ w, ready.admits 0x1000 w = true) ∧
    (∀ w : Width, ready.admits (flagAddr 0x1000 (BitVec.ofNat 64 w.bytes)) .w8 = true ∧
      ∀ k, k < w.bytes → flagAddr 0x1000 (BitVec.ofNat 64 w.bytes) ≠ byteAddr 0x1000 k) ∧
    ready.admits (flagAddr 0x1000 0xFFFFFFFFFFFFFFFF) .w8 = true :=
  ⟨ready_begins, fun _ => rfl, fun w => ⟨rfl, by cases w <;> decide⟩, rfl⟩

/-- For each width: the flag on the first and on the last byte of the sum. -/
theorem witness_UaddoOverlapDamagesOneByte :
    ready.Begins ∧ (∀ w, ready.admits 0x1000 w = true) ∧
    (∀ w : Width, (0 : Slot).toNat < w.bytes ∧ (BitVec.ofNat 64 (w.bytes - 1)).toNat < w.bytes) ∧
    (∀ c : Slot, ready.admits (flagAddr 0x1000 c) .w8 = true) :=
  ⟨ready_begins, fun _ => rfl, fun w => by cases w <;> decide, fun _ => rfl⟩

/-- For each width: the sum refused; and the sum accepted with the flag refused, for UADDO.8 at the byte next to it. -/
theorem witness_UaddoRefusedStores :
    (∀ w : Width, (refusingAt [(0x4000, w.bytes)]).Begins ∧
      (refusingAt [(0x4000, w.bytes)]).admits 0x4000 w = false) ∧
    (∀ w : Width, (refusingAt [(0x4008, 1)]).Begins ∧ (refusingAt [(0x4008, 1)]).admits 0x4000 w = true ∧
      (refusingAt [(0x4008, 1)]).admits (flagAddr 0x4000 8) .w8 = false) :=
  ⟨fun w => ⟨refusingAt_begins _, by cases w <;> decide⟩, fun w => ⟨refusingAt_begins _, by cases w <;> decide⟩⟩

theorem witness_UaddoSumBeforeFlag : ∀ w : Width,
    (State.answered { ready with agenda := [.run 1, .take] }) = 0 ∧
    (State.landed { ready with agenda := [.run 1, .take] }) = [] ∧
    (State.agenda { ready with agenda := [.run 1, .take] }) = .run 1 :: [.take] ∧
    State.admits { ready with agenda := [.run 1, .take] } 0x1000 w = true :=
  fun _ => ⟨rfl, rfl, rfl, rfl⟩

theorem witness_UaddcWholeEffect : ready.Begins ∧ ∀ w, ready.admits 0xFFFFFFFFFFFFFFFF w = true :=
  ⟨ready_begins, fun _ => rfl⟩

theorem witness_UaddcRefusedStore : ∀ w : Width, (refusingAt [(0x4000, w.bytes)]).Begins ∧
    (refusingAt [(0x4000, w.bytes)]).admits 0x4000 w = false :=
  fun w => ⟨refusingAt_begins _, by cases w <;> decide⟩

/-- An agenda with pauses, a byte landing early and another agent's store to the byte next to the widest carry cell. -/
def busyAgenda : State := { ready with agenda := [.run 0, .land 0, .write .w8 0x2008 0xFF, .take, .run 2, .run 1] }

theorem witness_HostChainAddsWide : ([(0xFFFFFFFFFFFFFFFF, 1), (0, 0)] : List (Slot × Slot)) ≠ [] ∧
    busyAgenda.inflight = none ∧ busyAgenda.port = none ∧ (∀ w, busyAgenda.admits 0x2000 w = true) ∧
    (∀ w : Width, LeavesAlone 0x2000 w.bytes busyAgenda.agenda) ∧
    (∀ w : Width, ¬inBytes 0x2000 w.bytes 0x2009 ∧
      ∀ size A v, Move.write size A v ∈ busyAgenda.agenda → ¬inBytes A size.bytes 0x2009) := by
  have hcell : ∀ (w : Width) (x : Addr), x = 0x2008 ∨ x = 0x2009 → ¬inBytes 0x2000 w.bytes x := by
    rintro w x hx ⟨k, hk, rfl⟩
    have hw := Width.bytes_le w
    have hk : k < 8 := by omega
    interval_cases k <;> revert hx <;> decide
  have hwrite : ∀ size A v, Move.write size A v ∈ busyAgenda.agenda → size = .w8 ∧ A = 0x2008 := by
    intro size A v h
    have h' : Move.write size A v = .write .w8 0x2008 0xFF := by simpa [busyAgenda] using h
    cases h'
    exact ⟨rfl, rfl⟩
  refine ⟨by decide, rfl, rfl, fun _ => rfl, fun w => ⟨by decide, ?_⟩, fun w => ⟨hcell w _ (.inr rfl), ?_⟩⟩
  · intro size B v h x hx
    obtain ⟨rfl, rfl⟩ := hwrite size B v h
    exact hcell w x (.inl ((inBytes_one _ _).1 hx))
  · intro size A v h hx
    obtain ⟨rfl, rfl⟩ := hwrite size A v h
    exact absurd ((inBytes_one _ _).1 hx) (by decide)

theorem witness_ScriptLineRunsItsCommand : ready.agenda = [] ∧ ready.inflight = none ∧
    assemble ⟨.zeroInit, [0x6000, 16]⟩ = .instr (.zfill 16 0 0 0x6000) := ⟨rfl, rfl, by decide⟩

/-- A region that wraps. -/
theorem witness_ZfillWholeEffect : ready.Begins ∧
    (∀ x, inBytes 0xFFFFFFFFFFFFFFFE (4 : Slot).toNat x → ready.admits x .w8 = true) ∧
    inBytes 0xFFFFFFFFFFFFFFFE (4 : Slot).toNat 1 :=
  ⟨ready_begins, fun _ _ => rfl, 3, by decide, by decide⟩

/-- The first byte and the last byte refused. -/
theorem witness_ZfillStopsAtFirstRefusal :
    ((refusingAt [(0x4000, 1)]).Begins ∧ 0 < (6 : Slot).toNat ∧
      (∀ j, j < 0 → (refusingAt [(0x4000, 1)]).admits (byteAddr 0x4000 j) .w8 = true) ∧
      (refusingAt [(0x4000, 1)]).admits (byteAddr 0x4000 0) .w8 = false) ∧
    ((refusingAt [(0x4005, 1)]).Begins ∧ 5 < (6 : Slot).toNat ∧
      (∀ j, j < 5 → (refusingAt [(0x4005, 1)]).admits (byteAddr 0x4000 j) .w8 = true) ∧
      (refusingAt [(0x4005, 1)]).admits (byteAddr 0x4000 5) .w8 = false) :=
  ⟨⟨refusingAt_begins _, by decide⟩, refusingAt_begins _, by decide⟩

theorem witness_ZfillLengthZero : (refusingAt [(0x4002, 1)]).Begins := refusingAt_begins _

theorem witness_ZfillIdempotent : ready.Begins ∧ ready.mem.wf = true ∧
    (∀ x, inBytes 0x6000 (16 : Slot).toNat x → ready.admits x .w8 = true) := ⟨ready_begins, rfl, fun _ _ => rfl⟩

/-- The flag store of a UADDO.16 is the first refused. -/
theorem witness_FirstRefusalIsReported :
    (refusingAt [(0x4002, 1)]).Begins ∧ 1 < (planOf (.uaddo16 0xFFFF 2 2 0x4000)).count ∧
    (∀ j, j < 1 → (refusingAt [(0x4002, 1)]).admitsTxn (planOf (.uaddo16 0xFFFF 2 2 0x4000)) j) ∧
    ¬(refusingAt [(0x4002, 1)]).admitsTxn (planOf (.uaddo16 0xFFFF 2 2 0x4000)) 1 := by
  unfold State.admitsTxn
  exact ⟨refusingAt_begins _, by decide⟩

theorem witness_NoFaultWhenNothingIsRefused : ready.quota = none ∧ ∀ A n, ready.admits A n = true :=
  ⟨rfl, fun _ _ => rfl⟩

/-- No move, and all the moves but the response. -/
theorem witness_TurnPerformsTransactionsInOrder : ∀ n, n = 0 ∨ n = 2 →
    (State.answered { ready with agenda := [.run n] }) = 0 ∧ (State.landed { ready with agenda := [.run n] }) = [] ∧
    n ≤ (planOf (.uaddo8 250 10 1 0x7000)).count ∧
    ∀ j, j < n → State.admitsTxn { ready with agenda := [.run n] } (planOf (.uaddo8 250 10 1 0x7000)) j := by
  rintro n (rfl | rfl)
  · exact ⟨rfl, rfl, by decide, fun _ _ => rfl⟩
  · exact ⟨rfl, rfl, by decide, fun _ _ => rfl⟩

/-- A turn that ends in a pause, and one that ends in the response. -/
theorem witness_PauseAloneChangesNothing :
    (∃ t, exec (.uaddo8 250 10 1 0x7000) { ready with agenda := [.run 1] } = .next t ∧ t.inflight ≠ none) ∧
    (∃ t, exec (.uaddo8 250 10 1 0x7000) { ready with agenda := [.run 3] } = .next t ∧ t.inflight = none) :=
  ⟨⟨_, rfl, by decide⟩, ⟨_, rfl, by decide⟩⟩

/-- P4 line 1 (its hypotheses on the first attempt are those of the witness of FirstRefusalIsReported), issued again once
nothing is refused. -/
theorem witness_RetryAfterFaultSucceeds :
    ((refusingAt [(0x4002, 1)]).Begins ∧ 1 < (planOf (.uaddo16 0xFFFF 2 2 0x4000)).count ∧
      (∀ j, j < 1 → (refusingAt [(0x4002, 1)]).admitsTxn (planOf (.uaddo16 0xFFFF 2 2 0x4000)) j) ∧
      ¬(refusingAt [(0x4002, 1)]).admitsTxn (planOf (.uaddo16 0xFFFF 2 2 0x4000)) 1) ∧
    ∀ j, j < (planOf (.uaddo16 0xFFFF 2 2 0x4000)).count →
      State.admitsTxn { refusingAt [(0x4002, 1)] with refusing := [] } (planOf (.uaddo16 0xFFFF 2 2 0x4000)) j :=
  ⟨witness_FirstRefusalIsReported, fun _ _ => rfl⟩

theorem witness_StoreThenReadGivesValue : ready.landed = [] ∧ 7 < Width.w64.bytes ∧
    ¬inBytes 0xFFFFFFFFFFFFFFFE Width.w32.bytes 2 := ⟨rfl, by decide, fun ⟨k, hk, h⟩ => by
  have hk : k < 4 := hk
  interval_cases k <;> revert h <;> decide⟩

/-- The instance moves with an empty agenda and with a turn of its own; IDLE with a command presented, and BUSY. -/
theorem witness_StepRunsDecodedCommand :
    InstanceMoves (presented [] 0x30) ∧ (presented [] 0x30).inflight = none ∧
    (presented [] 0x30).request = some 0x30 ∧ decodeBits 0x30 = .instr (.zfill 0 0 0 0) ∧
    InstanceMoves (p5 [.run 1]) ∧ (p5 [.run 1]).inflight = some ⟨⟨0x10, 250, 10, 1, 0x7000⟩, 1⟩ ∧
    decode ⟨0x10, 250, 10, 1, 0x7000⟩ = .instr (.uaddo8 250 10 1 0x7000) :=
  ⟨.inl rfl, rfl, rfl, by decide, .inr ⟨1, [], rfl⟩, rfl, by decide⟩

theorem witness_ReservedCodeRespondsIll :
    (presented [] 0x14).agenda = [] ∧ (presented [] 0x14).inflight = none ∧ (presented [] 0x14).request = some 0x14 ∧
    ∀ i, decodeBits 0x14 ≠ .instr i := by
  refine ⟨rfl, rfl, rfl, fun i h => ?_⟩
  have h' : decodeBits 0x14 = .reserved .reservedBits 0x14 := by decide
  rw [h'] at h
  cases h

theorem witness_BusyInstanceAcceptsNothing :
    InstanceMoves (p5 []) ∧ (p5 []).inflight = some ⟨⟨0x10, 250, 10, 1, 0x7000⟩, 1⟩ := ⟨.inl rfl, rfl⟩

theorem p5_inv (moves : List Move) : (p5 moves).Inv :=
  ⟨rfl, ⟨by decide, rfl, rfl, rfl⟩, by
    rintro p ⟨⟩
    exact ⟨List.nodup_nil, fun k hk => absurd hk (by simp), fun h => absurd rfl h⟩⟩

/-- A step of another agent, and a turn of the instance of no move, both BUSY to BUSY from a state with the invariant. -/
theorem witness_PrivateCopyIsImmutable :
    (∀ moves, (p5 moves).Inv) ∧
    (∃ t g, (p5 [.write .w8 0x7001 0x1E]).inflight ≠ none ∧ step (p5 [.write .w8 0x7001 0x1E]) = .next t ∧
      t.inflight = some g) ∧
    (∃ t g, (p5 [.run 0]).inflight ≠ none ∧ step (p5 [.run 0]) = .next t ∧ t.inflight = some g) :=
  ⟨p5_inv, ⟨_, _, by decide, rfl, rfl⟩, ⟨_, _, by decide, rfl, rfl⟩⟩

theorem witness_UndisturbedInstanceResponds :
    ((p5 []).agenda = [] ∧ (p5 []).inflight ≠ none) ∧
    ((presented [] 0x30).agenda = [] ∧ (presented [] 0x30).request ≠ none) := by decide

theorem witness_IdleInstanceStaysIdle :
    ready.agenda = [] ∧ ready.inflight = none ∧ ready.request = none := ⟨rfl, rfl, rfl⟩

theorem witness_OtherAgentsStore :
    (p5 [.write .w16 0xFFFFFFFFFFFFFFFF 0x1234]).agenda = .write .w16 0xFFFFFFFFFFFFFFFF 0x1234 :: [] := rfl

/-- A byte that has landed and one that has not. -/
theorem witness_LandedBytesAreNotRewritten :
    State.port { ready with port := some ⟨⟨.w16, 0x2000, 0x1335⟩, [1]⟩ } = some ⟨⟨.w16, 0x2000, 0x1335⟩, [1]⟩ ∧
    0 < Width.w16.bytes ∧ 1 < Width.w16.bytes ∧ 1 ∈ [1] ∧ 0 ∉ [1] := ⟨rfl, by decide, by decide, by decide, by decide⟩

/-- Reset with a store awaiting its answer, and with none. -/
theorem witness_ResetAbandonsCommand :
    (p5 [.reset]).agenda = .reset :: [] ∧ (p5 [.reset]).port ≠ none ∧
    State.agenda { ready with agenda := [.reset] } = .reset :: [] ∧
    State.port { ready with agenda := [.reset] } = none := by decide

theorem witness_AdmissionNeverChanges : ∃ t, step (refusingAt [(0x4002, 1)]) = .next t := ⟨_, rfl⟩

/-- A BUSY state that meets the invariant, with a step to a BUSY state and a step to an IDLE one. -/
theorem witness_StepKeepsInvariant :
    (p5 [.land 0]).Inv ∧ (∃ t, step (p5 [.land 0]) = .next t ∧ t.inflight ≠ none) ∧
    (p5 []).Inv ∧ (∃ t, step (p5 []) = .next t ∧ t.inflight = none) :=
  ⟨p5_inv _, ⟨_, rfl, by decide⟩, p5_inv _, ⟨_, rfl, by decide⟩⟩

/-- P5, disjoint: between the two moves of I1, I2's sum byte is written. -/
theorem witness_DisjointWriterDoesNotInterfere :
    State.agenda { ready with agenda := [.run 1, .write .w8 0x7002 0x1E] } = [.run 1, .write .w8 0x7002 0x1E] ∧
    (∀ x, inBytes 0x7002 Width.w8.bytes x → ¬(planOf (.uaddo8 250 10 1 0x7000)).writes x) ∧
    (∃ t, exec (.uaddo8 250 10 1 0x7000) { ready with agenda := [.run 1, .write .w8 0x7002 0x1E] } = .next t ∧
      t.inflight ≠ none) := by
  refine ⟨rfl, ?_, _, rfl, by decide⟩
  rintro x hx ⟨k, hk, hin⟩
  obtain rfl := (inBytes_one _ _).1 hx
  have hk : k < 2 := hk
  interval_cases k
  · exact absurd ((inBytes_one _ _).1 hin) (by decide)
  · exact absurd ((inBytes_one _ _).1 hin) (by decide)

theorem witness_HostPresentsAndTakes :
    (p5 [.present 0x30, .take]).agenda = .present 0x30 :: [.take] ∧ (p5 [.take]).agenda = .take :: [] := ⟨rfl, rfl⟩

/-- A UADDC.16 with its store awaiting its answer, and the memory about to take its byte 1. -/
def tornStore : State :=
  { ready with inflight := some ⟨⟨0x21, 1, 2, 0, 0x2000⟩, 0⟩, port := some ⟨⟨.w16, 0x2000, 0⟩, []⟩, agenda := [.land 1] }

/-- An accepted transaction whose last byte lands and a refused one; a byte that is not the last; an IDLE instance. -/
theorem witness_OneByteMayLandAhead :
    (∀ j, j < Width.w8.bytes → j = 0 ∨ j ∈ ([] : List Nat)) ∧
    (tornStore.agenda = .land 1 :: [] ∧ tornStore.port = some ⟨⟨.w16, 0x2000, 0⟩, []⟩ ∧ 1 < Width.w16.bytes ∧
      tornStore.admits 0x2000 .w16 = true ∧ ∃ j, j < Width.w16.bytes ∧ j ≠ 1 ∧ j ∉ ([] : List Nat)) ∧
    State.inflight { tornStore with inflight := none } = none ∧
    (p5 [.land 0]).agenda = .land 0 :: [] ∧ (p5 [.land 0]).port = some ⟨⟨.w8, 0x7001, 1⟩, []⟩ ∧ 0 < Width.w8.bytes ∧
    0 ∉ ([] : List Nat) ∧ (p5 [.land 0]).admits 0x7001 .w8 = true ∧
    State.admits { p5 [.land 0] with refusing := [(0x7001, 1)] } 0x7001 .w8 = false :=
  ⟨by decide, ⟨rfl, rfl, by decide, rfl, 0, by decide⟩, rfl, by decide⟩

/-- For the first clause a BUSY instance with an earlier command and one with a reset to come; for the second a reserved
code. -/
theorem witness_ScriptLineWaitsForItsResponse :
    assemble ⟨.zfill, [0x6000, 16]⟩ = .instr (.zfill 16 0 0 0x6000) ∧
    (∃ t, runLine (.command .zfill [.number 0x6000, .number 16]) (p5 []) [] = .done t [⟨0x6000, some .ok⟩]) ∧
    (∃ t, runLine (.command .zfill [.number 0x6000, .number 1]) { ready with agenda := [.run 1, .reset] } [] =
      .abandoned t []) ∧
    (∀ i, decodeBits 0x24 ≠ .instr i) ∧ Move.reset ∉ (p5 [.run 0]).agenda := by
  refine ⟨by decide, ⟨_, rfl⟩, ⟨_, rfl⟩, fun i h => ?_, by decide⟩
  have h' : decodeBits 0x24 = .reserved .reservedBits 0x24 := by decide
  rw [h'] at h
  cases h

end Sys2Proof.Tests
end

section
/-! PROOFS. The family 00_scope.md: `admit` is a launch parameter (O49), and a script's command line runs its own command
(O23) and waits for that command's own response (O53). Before them, the facts about descriptors, OK responses and script
operands that they need. -/

namespace Sys2Proof.Machine

/-! ### The descriptor of a command (spec/30_encoding.md R71, R74) -/

/-- Bit by bit: the layout is a concatenation, and each field is read at the place where it was put. -/
theorem Descriptor.ofBits_toBits (d : Descriptor) : Descriptor.ofBits d.toBits = d := by
  obtain ⟨cmd, a, b, c, addr⟩ := d
  simp only [Descriptor.ofBits, Descriptor.toBits, Descriptor.mk.injEq]
  refine ⟨?_, ?_, ?_, ?_, ?_⟩ <;>
  · apply BitVec.eq_of_getLsbD_eq
    intro i hi
    simp only [BitVec.getLsbD_extractLsb', BitVec.getLsbD_append]
    grind

/-- The three fields of each of the nine codes are closed terms, which select the decoder's branch. -/
theorem decode_descriptor (i : Instr) : decode i.descriptor = .instr i := by
  cases i <;>
    simp [decode, Instr.descriptor, cmdFamily, cmdReserved, cmdWidthCode, widthOfCode, Instr.uaddo, Instr.uaddc]

theorem planOfDescriptor_encode (i : Instr) : planOfDescriptor (Descriptor.ofBits (encode i)) = planOf i := by
  rw [encode, Descriptor.ofBits_toBits, planOfDescriptor, decode_descriptor]

theorem planOfDescriptor_reserved {D : BitVec 264} (h : ∀ i, decodeBits D ≠ .instr i) :
    planOfDescriptor (Descriptor.ofBits D) = illegalPlan (Descriptor.ofBits D) := by
  unfold planOfDescriptor
  split
  · exact absurd ‹_› (h _)
  · rfl

/-! ### The OK response of a command (spec/30_encoding.md R78) -/

theorem carryIn_toNat (c : Slot) : (carryIn c).toNat = c.toNat % 2 := by
  rcases Nat.mod_two_eq_zero_or_one c.toNat with h | h <;> simp [carryIn, BitVec.getLsbD, h]

theorem carryOperand_toNat (w : Width) (cin : Bool) : (carryOperand w cin).toNat = cin.toNat := by
  have hw : 1 < 2 ^ w.bits := by cases w <;> decide
  have hc := cin.toNat_lt
  rw [carryOperand, BitVec.toNat_setWidth, BitVec.toNat_ofBool, Nat.mod_eq_of_lt (by omega)]

/-- The two ADDO steps of ADDC (R106) add up to the exact sum with the carry-in, modulo `2^W`. -/
theorem uaddcResult_sum_toNat (w : Width) (a b c : Slot) :
    (uaddcResult w a b c).1.toNat = exactSumWithCarry w a b c % 2 ^ w.bits := by
  simp only [uaddcResult, addc, addo, lowBits, BitVec.toNat_add, BitVec.toNat_setWidth, carryOperand_toNat,
    carryIn_toNat]
  exact Nat.mod_add_mod _ _ _

theorem uaddcPlan_final (w : Width) (d : Descriptor) :
    (uaddcPlan w d).final = ⟨.ok, BitVec.ofNat 64 (exactSumWithCarry w d.a d.b d.c % 2 ^ w.bits), 0⟩ := by
  rw [← uaddcResult_sum_toNat, BitVec.ofNat_toNat]
  rfl

/-- The plans answer with the values of R78: UADDO and ZFILL with their address, UADDC with the truncated sum. -/
theorem planOf_final (i : Instr) : (planOf i).final = ⟨.ok, OkValue i, 0⟩ := by
  cases i with
  | uaddo8 | uaddo16 | uaddo32 | uaddo64 | zfill => rfl
  | uaddc8 => exact uaddcPlan_final .w8 _
  | uaddc16 => exact uaddcPlan_final .w16 _
  | uaddc32 => exact uaddcPlan_final .w32 _
  | uaddc64 => exact uaddcPlan_final .w64 _

/-! ### The responses a plan can give (spec/30_encoding.md R77; spec/60_exceptions.md R171, R172) -/

/-- The response `r` is one that the plan `p`, run where `s` stands, can give: its own, or the memory fault of one of its
refused transactions. -/
def Plan.CanRespond (p : Plan) (s : State) (r : Response) : Prop :=
  r = p.final ∨ (r.status = .memfault ∧ ∃ k, k < p.count ∧ ¬s.admitsTxn p k ∧ r.value = (p.txn k).addr)

theorem Plan.canRespond_planOf {i : Instr} {s : State} {r : Response} :
    (planOf i).CanRespond s r ↔ IsResponseOf i s r := by
  rw [Plan.CanRespond, planOf_final, IsResponseOf]

/-- A reserved code has no transaction that could be refused. -/
theorem Plan.canRespond_illegalPlan {d : Descriptor} {s : State} {r : Response} :
    (illegalPlan d).CanRespond s r ↔ r = illegalResponse d.cmd := by
  simp [Plan.CanRespond, illegalPlan]

theorem Plan.canRespond_congr {p : Plan} {s t : State} {r : Response} (h : s.refusing = t.refusing) :
    p.CanRespond s r ↔ p.CanRespond t r := by
  simp [Plan.CanRespond, State.admitsTxn, State.admits, h]

/-! ### Admission (spec/00_scope.md R8) -/

theorem instanceTurn_refusing {s t : State} (h : instanceTurn s = .next t) : t.refusing = s.refusing := by
  unfold instanceTurn at h
  split at h
  · rw [serve_eq_runPlan] at h
    cases h
    exact (State.runPlan_frame _ s).2.2
  · split at h
    · rw [serve_eq_runPlan] at h
      cases h
      exact (State.runPlan_frame _ (s.accept _)).2.2
    · cases h
      exact s.endTurn_refusing

/-- Settles O49: a step is another agent's move or OCA's own turn, and neither touches the list of refused pairs. -/
theorem admissionNeverChanges : Obligations.AdmissionNeverChanges := by
  intro s t h
  cases ho : s.otherMove with
  | some u =>
    rw [step_other ho] at h
    cases h
    exact (State.otherMove_instance ho).1
  | none => exact instanceTurn_refusing (step_of_otherMove_none ho ▸ h)

/-! ### A command line (spec/00_scope.md R11) -/

theorem evalOperands_numbers (results : List LineResult) (ns : List Nat) :
    evalOperands results (ns.map .number) = some ns := by
  induction ns with
  | nil => rfl
  | cons n ns ih => simp [evalOperands, ScriptArg.eval, ih]

section CommandLine
variable {head : AsmHead} {ns : List Nat} {i : Instr} {s t : State} {r : Response} (results : List LineResult)

theorem runLine_of_responded (ha : assemble ⟨head, ns⟩ = .instr i) (hi : issue (encode i) s = .responded t r) :
    runLine (.command head (ns.map .number)) s results = .done t (results ++ [⟨r.value, some r.status⟩]) := by
  simp [runLine, evalOperands_numbers, ha, hi]

theorem runLine_of_abandoned (ha : assemble ⟨head, ns⟩ = .instr i) (hi : issue (encode i) s = .abandoned t) :
    runLine (.command head (ns.map .number)) s results = .abandoned t results := by
  simp [runLine, evalOperands_numbers, ha, hi]

end CommandLine

/-- Undisturbed and IDLE, OCA accepts the descriptor and runs its whole plan in the first step of the issue; the host then
takes the response. -/
theorem issue_undisturbed (D : BitVec 264) {s : State} (hagenda : s.agenda = []) (hidle : s.inflight = none) :
    ∃ r, ((s.accept D).runPlan (planOfDescriptor (Descriptor.ofBits D))).response = some r ∧
      issue D s = .responded ((s.accept D).runPlan (planOfDescriptor (Descriptor.ofBits D))).takeResponse r := by
  have haccepts : s.acceptsNext = true := State.acceptsNext_iff.2 ⟨hidle, State.otherMove_none (.inl hagenda)⟩
  rcases (s.accept D).runPlan_ends (planOfDescriptor (Descriptor.ofBits D)) with ⟨hq, -⟩ | ⟨hend, -, r, hr, -⟩
  · simp [State.quota, hagenda] at hq
  · refine ⟨r, hr, ?_⟩
    simp [issue, hagenda, awaitAccept, step_offer_accept haccepts, haccepts, awaitResponse_idle hend, ended, hr]

/-- Settles O23: the first step of the line's issue is `exec` of its command on the accepted descriptor. -/
theorem scriptLineRunsItsCommand : Obligations.ScriptLineRunsItsCommand := by
  intro head ns i s results hagenda hidle hasm
  obtain ⟨r, hr, hissue⟩ := issue_undisturbed (encode i) hagenda hidle
  rw [planOfDescriptor_encode] at hr hissue
  exact ⟨_, r, exec_eq_runPlan i _, hr, runLine_of_responded results hasm hissue⟩

/-! ### The wait for a command's own response (spec/70_reset_and_hazards.md R201, R209)

The invariant of a wait that began in `s₀`, in its two halves and at its end: the shape that `issue_ends` asks for. -/

/-- What every step keeps: the refused pairs, and that no reset stands on the agenda that did not stand there in `s₀`. -/
def LaterThan (s₀ s : State) : Prop :=
  s.refusing = s₀.refusing ∧ (Move.reset ∈ s.agenda → Move.reset ∈ s₀.agenda)

/-- The command of descriptor `d` is in flight. -/
def AwaitsOwn (s₀ : State) (d : Descriptor) (s : State) : Prop :=
  LaterThan s₀ s ∧ s.inflight.map InFlight.desc = some d

/-- The ports at the end: nothing pending, and a response of the descriptor's own plan or, where a reset stood on the agenda
of `s₀`, none. -/
def EndedOwn (s₀ : State) (d : Descriptor) (t : State) : Prop :=
  t.port = none ∧
  ((∃ r, t.response = some r ∧ (planOfDescriptor d).CanRespond s₀ r) ∨ (Move.reset ∈ s₀.agenda ∧ t.response = none))

theorem LaterThan.refl (s : State) : LaterThan s s := ⟨rfl, id⟩

section Wait
variable {s₀ s t : State} {d : Descriptor} {D : BitVec 264}

theorem LaterThan.step (h : LaterThan s₀ s) (hs : step s = .next t) : LaterThan s₀ t := by
  obtain ⟨hrefusing, hreset⟩ := h
  refine ⟨(admissionNeverChanges s t hs).trans hrefusing, fun hm => hreset ?_⟩
  rw [step_agenda hs] at hm
  exact List.mem_of_mem_tail hm

/-- The host's offer touches neither the refused pairs nor the agenda. -/
theorem LaterThan.offer (h : LaterThan s₀ s) : LaterThan s₀ (s.offer D) := h

theorem runPlan_awaits_or_ends (hs : s.refusing = s₀.refusing) (ht : LaterThan s₀ (s.runPlan (planOfDescriptor d))) :
    AwaitsOwn s₀ d (s.runPlan (planOfDescriptor d)) ∨
    ((s.runPlan (planOfDescriptor d)).inflight = none ∧ EndedOwn s₀ d (s.runPlan (planOfDescriptor d))) := by
  rcases s.runPlan_ends (planOfDescriptor d) with ⟨-, k, hk⟩ | ⟨hidle, hport, r, hr, hc⟩
  · exact .inl ⟨ht, by simp [hk, planOfDescriptor_desc]⟩
  · exact .inr ⟨hidle, hport, .inl ⟨r, hr, (Plan.canRespond_congr hs).1 hc⟩⟩

theorem LaterThan.step_accept (h : LaterThan s₀ s) (ha : s.acceptsNext = true) (hs : Machine.step (s.offer D) = .next t) :
    AwaitsOwn s₀ (Descriptor.ofBits D) t ∨ (t.inflight = none ∧ EndedOwn s₀ (Descriptor.ofBits D) t) := by
  have ht := h.offer.step hs
  rw [step_offer_accept ha] at hs
  cases hs
  exact runPlan_awaits_or_ends h.1 ht

/-- In flight, the command moves on by OCA's own turn; another agent's move leaves it in flight, but that reset ends it. -/
theorem AwaitsOwn.step (h : AwaitsOwn s₀ d s) (hs : step s = .next t) :
    AwaitsOwn s₀ d t ∨ (t.inflight = none ∧ EndedOwn s₀ d t) := by
  obtain ⟨hlater, hdesc⟩ := h
  have ht := hlater.step hs
  cases ho : s.otherMove with
  | some u =>
    rw [step_other ho] at hs
    cases hs
    rcases (State.otherMove_instance ho).2 with ⟨hsame, -⟩ | ⟨hreset, hidle, hport, hnone⟩
    · exact .inl ⟨ht, hsame.trans hdesc⟩
    · exact .inr ⟨hidle, hport, .inr ⟨hlater.2 hreset, hnone⟩⟩
  | none =>
    obtain ⟨f, hf, rfl⟩ := Option.map_eq_some_iff.1 hdesc
    rw [step_busy hf ho] at hs
    cases hs
    exact runPlan_awaits_or_ends hlater.1 ht

theorem AwaitsOwn.busy (h : AwaitsOwn s₀ d s) : s.inflight ≠ none := fun hnone => by simp [AwaitsOwn, hnone] at h

end Wait

/-- Every issue ends, from every state and under every agenda: with a response of the descriptor's own plan, which the host
takes, or abandoned, only where a reset stands on the agenda. -/
theorem issue_cases (D : BitVec 264) (s : State) :
    ∃ t, t.inflight = none ∧ t.port = none ∧ t.response = none ∧
      ((∃ r, issue D s = .responded t r ∧ (planOfDescriptor (Descriptor.ofBits D)).CanRespond s r) ∨
       (Move.reset ∈ s.agenda ∧ issue D s = .abandoned t)) := by
  obtain ⟨t, hidle, ⟨hport, hend⟩, hissue⟩ := issue_ends (Wait := LaterThan s)
    (fun _ _ h _ hs => h.offer.step hs) (fun _ _ h ha hs => h.step_accept ha hs)
    (fun _ h => h.busy) (fun _ _ h hs => h.step hs) (LaterThan.refl s) (D := D)
  rcases hend with ⟨r, hr, hc⟩ | ⟨hreset, hr⟩
  · exact ⟨t.takeResponse, hidle, hport, rfl, .inl ⟨r, by rw [hissue, ended, hr], hc⟩⟩
  · exact ⟨t, hidle, hport, hr, .inr ⟨hreset, by rw [hissue, ended, hr]⟩⟩

/-- Settles O53: both clauses are `issue_cases`, for the plan of the assembled command and for that of a reserved code. -/
theorem scriptLineWaitsForItsResponse : Obligations.ScriptLineWaitsForItsResponse := by
  refine ⟨fun head ns i s results hasm => ?_, fun D s hreserved hnoreset => ?_⟩
  · obtain ⟨t, hidle, hport, hr, ⟨r, hissue, hc⟩ | ⟨hreset, hissue⟩⟩ := issue_cases (encode i) s
    · rw [planOfDescriptor_encode, Plan.canRespond_planOf] at hc
      exact .inl ⟨t, r, runLine_of_responded results hasm hissue, hc, hidle, hport, hr⟩
    · exact .inr ⟨hreset, t, runLine_of_abandoned results hasm hissue, hidle, hport, hr⟩
  · obtain ⟨t, hidle, hport, hr, ⟨r, hissue, hc⟩ | ⟨hreset, -⟩⟩ := issue_cases D s
    · rw [planOfDescriptor_reserved hreserved, Plan.canRespond_illegalPlan] at hc
      subst hc
      exact ⟨t, hissue, hidle, hport, hr⟩
    · exact absurd hreset hnoreset

end Sys2Proof.Machine
end

section
/-! PROOFS. The family 10_state.md: the invariant at launch (O51) and under every step (O52), the copy OCA keeps of
a command in flight and its progress (O39), the three ways a command ends (O29), OCA left IDLE (O41) and the launch state
(O50). Before them, what a step can be, and what the invariant asks where OCA is IDLE and where it is BUSY. -/

namespace Sys2Proof.Machine

/-! ### What a step can be (spec/20_memory.md R54; spec/30_encoding.md R70) -/

/-- With OCA IDLE, its turn and nothing presented, the step ends the turn. -/
theorem step_idle {s : State} (hi : s.inflight = none) (hr : s.request = none) (h : s.otherMove = none) :
    step s = .next s.endTurn := by
  simp [step_of_otherMove_none h, instanceTurn, hi, hr]

/-- A step is another agent's move or OCA's own turn: BUSY, it carries on with its copy of the descriptor; IDLE, it accepts
what is presented or ends its turn. -/
theorem step_cases {s t : State} (h : step s = .next t) :
    s.otherMove = some t ∨
    (∃ f, s.inflight = some f ∧ t = s.runPlan (planOfDescriptor f.desc)) ∨
    (∃ D, s.inflight = none ∧ t = (s.accept D).runPlan (planOfDescriptor (Descriptor.ofBits D))) ∨
    (s.inflight = none ∧ t = s.endTurn) := by
  cases ho : s.otherMove with
  | some u =>
    rw [step_other ho] at h
    cases h
    exact .inl rfl
  | none =>
    cases hi : s.inflight with
    | some f =>
      rw [step_busy hi ho] at h
      cases h
      exact .inr (.inl ⟨f, rfl, rfl⟩)
    | none =>
      cases hr : s.request with
      | some D =>
        rw [step_accept hi hr ho] at h
        cases h
        exact .inr (.inr (.inl ⟨D, rfl, rfl⟩))
      | none =>
        rw [step_idle hi hr ho] at h
        cases h
        exact .inr (.inr (.inr ⟨rfl, rfl⟩))

/-- Settles O41: with an empty agenda no turn stands there to be ended. -/
theorem idleInstanceStaysIdle : Obligations.IdleInstanceStaysIdle := by
  intro s hagenda hidle hrequest
  have hend : s.endTurn = s := State.endTurn_of_quota_none (by simp [State.quota, hagenda])
  rw [step_idle hidle hrequest (State.otherMove_none (.inl hagenda)), hend]

/-! ### What raising a memory fault leaves (spec/60_exceptions.md R171, R175) -/

@[simp] theorem State.raiseMemFault_mem (A : Addr) (s : State) : (s.raiseMemFault A).mem = s.mem := by
  simp [State.raiseMemFault]

@[simp] theorem State.raiseMemFault_faultSeen (A : Addr) (s : State) : (s.raiseMemFault A).faultSeen = true := by
  simp [State.raiseMemFault]

theorem State.raiseMemFault_responded (A : Addr) (s : State) :
    Responded (s.raiseMemFault A) ⟨.memfault, A, s.nextCode⟩ := ⟨rfl, rfl, rfl⟩

/-! ### What the invariant asks (spec/10_state.md R26, R27; spec/20_memory.md R42, R49, R52) -/

/-- The third clause of the invariant, for one transaction: its bytes taken ahead are bytes of it, each once, and where
there are any the memory subsystem accepts it. -/
def State.TakenAhead (s : State) (q : Pending) : Prop :=
  q.landed.Nodup ∧ (∀ k ∈ q.landed, k < q.txn.size.bytes) ∧ (q.landed ≠ [] → s.admits q.txn.addr q.txn.size = true)

theorem State.takenAhead_of_landed_nil {s : State} {q : Pending} (h : q.landed = []) : s.TakenAhead q := by
  simp [State.TakenAhead, h]

theorem State.takenAhead_congr {s t : State} {q : Pending} (h : t.refusing = s.refusing) :
    t.TakenAhead q ↔ s.TakenAhead q := by
  simp [State.TakenAhead, State.admits, h]

theorem performedAhead_le_one (q : Option Pending) : performedAhead q ≤ 1 := by
  cases q with
  | none => exact Nat.zero_le 1
  | some p => exact Bool.toNat_le p.whole

/-- The transaction issued after `k` answered ones is one of the plan's. -/
theorem Plan.add_performedAhead_le_count {p : Plan} {k : Nat} (hk : k ≤ p.count) (landed : List Nat) :
    k + performedAhead (p.pendingAt k landed) ≤ p.count := by
  unfold Plan.pendingAt
  split
  · have := performedAhead_le_one (some ⟨p.txn k, landed⟩)
    omega
  · exact hk

theorem Plan.landed_of_pendingAt {p : Plan} {k : Nat} {landed : List Nat} {q : Pending}
    (h : p.pendingAt k landed = some q) : q.landed = landed := by
  unfold Plan.pendingAt at h
  split at h <;> cases h
  rfl

/-- A transaction that is issued keeps the bytes taken ahead of it. -/
theorem Plan.pendingAt_landed_of_port {p : Plan} {k : Nat} {landed : List Nat} {s : State}
    (h : s.port = p.pendingAt k landed) : s.port = p.pendingAt k s.landed := by
  unfold State.landed
  rw [h]
  unfold Plan.pendingAt
  split <;> rfl

theorem State.inv_of_idle {s : State} (hmem : s.mem.wf = true) (hidle : s.inflight = none) (hport : s.port = none) :
    s.Inv := by
  simp [State.Inv, hmem, hidle, hport]

theorem State.Inv.wf {s : State} (h : s.Inv) : s.mem.wf = true := h.1

theorem State.Inv.takenAhead {s : State} (h : s.Inv) : ∀ q, s.port = some q → s.TakenAhead q := h.2.2

theorem State.Inv.port_of_idle {s : State} (h : s.Inv) (hidle : s.inflight = none) : s.port = none := by
  simpa [hidle] using h.2.1

/-- The invariant's clause where OCA is BUSY. -/
theorem State.Inv.busy {s : State} {f : InFlight} (h : s.Inv) (hbusy : s.inflight = some f) :
    f.done ≤ (planOfDescriptor f.desc).count ∧ f.done = s.answered + performedAhead s.port ∧
    s.port = (planOfDescriptor f.desc).pendingAt s.answered s.landed ∧ s.response = none := by
  simpa [hbusy] using h.2.1

/-- BUSY with `k` transactions answered and the next one issued, OCA meets the invariant. -/
theorem State.inv_of_busy {s : State} {d : Descriptor} {k : Nat} {landed : List Nat} (hmem : s.mem.wf = true)
    (hbusy : s.inflight = some ⟨d, k + performedAhead s.port⟩) (hk : k ≤ (planOfDescriptor d).count)
    (hport : s.port = (planOfDescriptor d).pendingAt k landed) (hresponse : s.response = none)
    (htaken : ∀ q, s.port = some q → s.TakenAhead q) : s.Inv := by
  have hanswered : s.answered = k := by simp [State.answered, hbusy]
  have hle := Plan.add_performedAhead_le_count hk landed
  rw [← hport] at hle
  refine ⟨hmem, ?_, htaken⟩
  rw [hbusy, hanswered]
  exact ⟨hle, rfl, Plan.pendingAt_landed_of_port hport, hresponse⟩

/-- Settles O51: nothing is in flight or pending at launch, and an empty list of cells is canonical. -/
theorem invariantAtReset : Obligations.InvariantAtReset := State.inv_of_idle State.reset_mem_wf rfl rfl

/-- Settles O50: every field is read off `State.reset`, and a memory with no cell reads as `mem0`. -/
theorem launchState : Obligations.LaunchState := ⟨rfl, rfl, rfl, rfl, fun _ => rfl⟩

/-! ### The invariant under the moves of the other agents (spec/20_memory.md R49, R54) -/

/-- The invariant reads memory, the command in flight, the memory and response ports and `admit` alone, and a response may
be taken. -/
theorem State.Inv.of_same_ports {s t : State} (h : s.Inv) (hmem : t.mem.wf = true)
    (hinflight : t.inflight = s.inflight) (hport : t.port = s.port) (hrefusing : t.refusing = s.refusing)
    (hresponse : t.response = s.response ∨ t.response = none) : t.Inv := by
  cases hi : s.inflight with
  | none => exact State.inv_of_idle hmem (hinflight.trans hi) (hport.trans (h.port_of_idle hi))
  | some f =>
    obtain ⟨hcount, hdone, hpending, hempty⟩ := h.busy hi
    refine State.inv_of_busy (d := f.desc) hmem (k := s.answered) ?_ (by omega) (hport.trans hpending) ?_ fun q hq => ?_
    · rw [hinflight, hi, hport, ← hdone]
    · rcases hresponse with hsame | htaken
      · exact hsame.trans hempty
      · exact htaken
    · rw [State.takenAhead_congr hrefusing]
      exact h.takenAhead q (hport ▸ hq)

/-- A byte taken ahead: nothing where it is not taken; else the port lists it and `done` counts the transaction once memory
has taken all of it. -/
theorem State.landByte_cases (k : Nat) (s : State) :
    s.landByte k = s ∨
    ∃ q, s.port = some q ∧ s.admits q.txn.addr q.txn.size = true ∧ k < q.txn.size.bytes ∧ k ∉ q.landed ∧
      (s.landByte k).port = some ⟨q.txn, k :: q.landed⟩ ∧
      (s.landByte k).inflight =
        s.inflight.map fun f => ⟨f.desc, f.done + performedAhead (some ⟨q.txn, k :: q.landed⟩)⟩ := by
  cases hp : s.port with
  | none => exact .inl (by simp [State.landByte, hp])
  | some q =>
    rw [State.landByte_of_port k hp]
    split
    · rename_i hc
      simp only [Bool.and_eq_true, decide_eq_true_eq, Bool.not_eq_true', List.contains_eq_mem,
        decide_eq_false_iff_not] at hc
      obtain ⟨⟨hadmits, hlt⟩, hnew⟩ := hc
      exact .inr ⟨q, rfl, hadmits, hlt, hnew, rfl, rfl⟩
    · exact .inl rfl

theorem State.TakenAhead.cons {s : State} {q : Pending} {k : Nat} (h : s.TakenAhead q)
    (hadmits : s.admits q.txn.addr q.txn.size = true) (hk : k < q.txn.size.bytes) (hnew : k ∉ q.landed) :
    s.TakenAhead ⟨q.txn, k :: q.landed⟩ := by
  obtain ⟨hnodup, hlt, -⟩ := h
  refine ⟨List.nodup_cons.2 ⟨hnew, hnodup⟩, fun j hj => ?_, fun _ => hadmits⟩
  rcases List.mem_cons.1 hj with rfl | hj
  · exact hk
  · exact hlt j hj

/-- The transaction issued, with one more of its bytes taken ahead, is still the next one of its plan. -/
theorem Plan.pendingAt_cons {p : Plan} {n : Nat} {landed : List Nat} {q : Pending} (k : Nat)
    (h : some q = p.pendingAt n landed) : some ⟨q.txn, k :: q.landed⟩ = p.pendingAt n (k :: landed) := by
  unfold Plan.pendingAt at h ⊢
  split at h
  · cases h
    rw [if_pos ‹_›]
  · cases h

/-- A byte that lands was missing, so `done` counted no pending transaction before; it counts this one if it is now whole. -/
theorem State.Inv.landByte (k : Nat) {s : State} (h : s.Inv) : (s.landByte k).Inv := by
  rcases s.landByte_cases k with hsame | ⟨q, hq, hadmits, hk, hnew, hport, hinflight⟩
  · rwa [hsame]
  · cases hi : s.inflight with
    | none => exact absurd hq (by simp [h.port_of_idle hi])
    | some f =>
      obtain ⟨hcount, hdone, hpending, hempty⟩ := h.busy hi
      have hahead : performedAhead s.port = 0 := hq ▸ performedAhead_of_missing hk hnew
      refine State.inv_of_busy (d := f.desc) (k := f.done) (landed := k :: s.landed) (State.landByte_wf k h.wf) ?_ hcount
        ?_ ((s.landByte_response k).trans hempty) fun r hr => ?_
      · rw [hinflight, hi, hport]
        rfl
      · rw [hport, hdone, hahead]
        exact Plan.pendingAt_cons k (hq ▸ hpending)
      · rw [State.takenAhead_congr (s.landByte_refusing k)]
        rw [hport] at hr
        cases hr
        exact (h.takenAhead q hq).cons hadmits hk hnew

theorem State.otherMove_keeps_inv {s t : State} (h : s.Inv) (ho : s.otherMove = some t) : t.Inv := by
  rcases State.otherMove_cases ho with
    ⟨D, rest, -, rfl⟩ | ⟨rest, -, rfl⟩ | ⟨size, A, v, rest, -, rfl⟩ | ⟨k, rest, -, rfl⟩ | ⟨rest, -, rfl⟩
  · exact h.of_same_ports h.wf rfl rfl rfl (.inl rfl)
  · exact h.of_same_ports h.wf rfl rfl rfl (.inr rfl)
  · exact h.of_same_ports (State.otherWrite_wf size A v h.wf) rfl rfl rfl (.inl rfl)
  · have hrest : State.Inv { s with agenda := rest } := h.of_same_ports h.wf rfl rfl rfl (.inl rfl)
    exact hrest.landByte k
  · refine State.inv_of_idle ?_ (State.resetInput_inflight _) (State.resetInput_port _)
    rw [State.resetInput_mem]
    exact State.settlePort_wf h.wf

/-! ### The invariant under OCA's own turn (spec/20_memory.md R42, R53) -/

/-- Where a command's plan may be run from, BUSY or just accepted: memory canonical, the response port empty, no more
transactions answered than there are, and of the next one only bytes taken that may be. -/
def State.MayRun (s : State) (p : Plan) : Prop :=
  s.mem.wf = true ∧ s.response = none ∧ s.answered ≤ p.count ∧
  ∀ q, p.pendingAt s.answered s.landed = some q → s.TakenAhead q

theorem State.Inv.mayRun {s : State} {f : InFlight} (h : s.Inv) (hbusy : s.inflight = some f) :
    s.MayRun (planOfDescriptor f.desc) := by
  obtain ⟨hcount, hdone, hpending, hempty⟩ := h.busy hbusy
  exact ⟨h.wf, hempty, by omega, fun q hq => h.takenAhead q (hpending.trans hq)⟩

theorem State.Inv.mayRun_accept {s : State} (h : s.Inv) (D : BitVec 264) (p : Plan) : (s.accept D).MayRun p :=
  ⟨h.wf, rfl, Nat.zero_le _, fun _ hq => State.takenAhead_of_landed_nil (Plan.landed_of_pendingAt hq)⟩

theorem State.pause_inv {s : State} {d : Descriptor} {k : Nat} (hmem : s.mem.wf = true) (hresponse : s.response = none)
    (hk : k ≤ (planOfDescriptor d).count)
    (htaken : ∀ q, (planOfDescriptor d).pendingAt k s.landed = some q → s.TakenAhead q) :
    (s.pause (planOfDescriptor d) k).Inv :=
  State.inv_of_busy (d := d) hmem (by simp [planOfDescriptor_desc]) hk rfl hresponse htaken

/-- A run pauses with its next transaction issued, which is the one it began with only where it has performed none, or it
leaves OCA IDLE. -/
theorem State.MayRun.runPlan_inv {s : State} {d : Descriptor} (h : s.MayRun (planOfDescriptor d)) :
    (s.runPlan (planOfDescriptor d)).Inv := by
  obtain ⟨hmem, hresponse, hanswered, htaken⟩ := h
  obtain ⟨m, hm, hc⟩ := s.runPlan_cases (planOfDescriptor d)
  obtain ⟨-, -, hsame, -⟩ := (planOfDescriptor d).performed_frame s.answered m s.endTurn
  have hwf : ((planOfDescriptor d).performed s.answered m s.endTurn).mem.wf = true :=
    Plan.performed_wf m (by simpa using hmem)
  rcases hc with ⟨-, h⟩ | ⟨-, -, -, h⟩ | ⟨-, -, h⟩ <;> rw [h]
  · refine State.pause_inv hwf (by simp [hsame, hresponse]) ?_ fun q hq => ?_
    · cases m with
      | zero => exact hanswered
      | succ m => exact (hm m (by omega)).1
    · cases m with
      | zero => exact (State.takenAhead_congr s.endTurn_refusing).2 (htaken q (by simpa using hq))
      | succ m => exact State.takenAhead_of_landed_nil (Plan.landed_of_pendingAt hq)
  · exact State.inv_of_idle (by simpa using hwf) rfl rfl
  · exact State.inv_of_idle hwf rfl rfl

/-- Settles O52, by what a step can be. -/
theorem stepKeepsInvariant : Obligations.StepKeepsInvariant := by
  intro s t h hstep
  rcases step_cases hstep with ho | ⟨f, hbusy, rfl⟩ | ⟨D, -, rfl⟩ | ⟨-, rfl⟩
  · exact State.otherMove_keeps_inv h ho
  · exact (h.mayRun hbusy).runPlan_inv
  · exact (h.mayRun_accept D _).runPlan_inv
  · exact h.of_same_ports (by simpa using h.wf) (by simp) (by simp) (by simp) (.inl (by simp))

/-! ### The copy OCA keeps and the progress (spec/10_state.md R21, R27; spec/20_memory.md R57) -/

/-- A move of another agent leaves the descriptor's copy and takes nothing from `done`, or ends the command. -/
theorem State.otherMove_inflight {s t : State} (h : s.otherMove = some t) :
    (∃ n, t.inflight = s.inflight.map fun f => ⟨f.desc, f.done + n⟩) ∨ t.inflight = none := by
  rcases State.otherMove_cases h with
    ⟨D, rest, -, rfl⟩ | ⟨rest, -, rfl⟩ | ⟨size, A, v, rest, -, rfl⟩ | ⟨k, rest, -, rfl⟩ | ⟨rest, -, rfl⟩
  · exact .inl ⟨0, by simp⟩
  · exact .inl ⟨0, by simp⟩
  · exact .inl ⟨0, by simp⟩
  · rcases State.landByte_cases k { s with agenda := rest } with hsame | ⟨q, -, -, -, -, -, hinflight⟩
    · exact .inl ⟨0, by simp [hsame]⟩
    · exact .inl ⟨_, hinflight⟩
  · exact .inr (State.resetInput_inflight _)

/-- A run that leaves OCA BUSY keeps the descriptor of its plan, and `done` counts the transactions answered before
and those of the run, with the next one where memory has taken all of it. -/
theorem State.runPlan_busy {p : Plan} {s : State} {g : InFlight} (h : (s.runPlan p).inflight = some g) :
    g.desc = p.desc ∧ (g.done = s.answered + performedAhead (p.pendingAt s.answered s.landed) ∨ s.answered < g.done) := by
  obtain ⟨m, -, hc⟩ := s.runPlan_cases p
  rcases hc with ⟨-, he⟩ | ⟨-, -, -, he⟩ | ⟨-, -, he⟩ <;> rw [he] at h <;> cases h
  refine ⟨rfl, ?_⟩
  cases m with
  | zero => exact .inl (by simp)
  | succ m => exact .inr (by simp only; omega)

/-- Settles O39: another agent's move only adds to `done`; OCA's own turn goes on from the transactions answered,
which by the invariant are all of `done` but for the one pending that memory has taken whole. -/
theorem privateCopyIsImmutable : Obligations.PrivateCopyIsImmutable := by
  intro s t f g hf hstep hg
  rcases step_cases hstep with ho | ⟨f', hf', rfl⟩ | ⟨D, hidle, -⟩ | ⟨hidle, -⟩
  · rcases State.otherMove_inflight ho with ⟨n, hn⟩ | hn <;> rw [hn] at hg
    · rw [hf] at hg
      cases hg
      exact ⟨rfl, fun _ => Nat.le_add_right _ _⟩
    · cases hg
  · rw [hf] at hf'
    cases hf'
    obtain ⟨hdesc, hdone⟩ := State.runPlan_busy hg
    refine ⟨hdesc.trans (planOfDescriptor_desc _), fun hinv => ?_⟩
    obtain ⟨-, hbefore, hpending, -⟩ := hinv.busy hf
    rw [← hpending, ← hbefore] at hdone
    have := performedAhead_le_one s.port
    omega
  · simp [hf] at hidle
  · simp [hf] at hidle

/-! ### How a command ends (spec/30_encoding.md R77, R78; spec/60_exceptions.md R171, R175) -/

/-- What a run does outside memory: it pauses within its turn, responds with its plan's response, or raises a memory fault,
which alone uses up a code. -/
theorem State.runPlan_outcomes (p : Plan) (s : State) :
    (∃ k, s.quota.isSome = true ∧ s.answered ≤ k ∧ (s.runPlan p).inflight = some ⟨p.desc, k⟩ ∧
      (s.runPlan p).response = s.response ∧ (s.runPlan p).codes = s.codes ∧ (s.runPlan p).draws = s.draws ∧
      (s.runPlan p).faultSeen = s.faultSeen) ∨
    (Responded (s.runPlan p) p.final ∧ (s.runPlan p).codes = s.codes ∧ (s.runPlan p).draws = s.draws ∧
      (s.runPlan p).faultSeen = (s.faultSeen || p.final.status == .memfault)) ∨
    (∃ A, Responded (s.runPlan p) ⟨.memfault, A, s.nextCode⟩ ∧ (s.runPlan p).codes = s.useCode.codes ∧
      (s.runPlan p).draws = s.useCode.draws ∧ (s.runPlan p).faultSeen = true) := by
  have hends := s.runPlan_ends p
  obtain ⟨m, -, hc⟩ := s.runPlan_cases p
  obtain ⟨-, -, hresponse, -, hcodes, hdraws, -, hseen⟩ := p.performed_frame s.answered m s.endTurn
  rw [State.endTurn_response] at hresponse
  rw [State.endTurn_codes] at hcodes
  rw [State.endTurn_draws] at hdraws
  rw [State.endTurn_faultSeen] at hseen
  rcases hc with ⟨-, h⟩ | ⟨-, -, -, h⟩ | ⟨-, -, h⟩ <;> rw [h] at hends ⊢
  · rcases hends with ⟨hquota, -⟩ | ⟨hidle, -⟩
    · exact .inl ⟨_, hquota, by omega, rfl, hresponse, hcodes, hdraws, hseen⟩
    · cases hidle
  · obtain ⟨hcode, hdraw, hnext⟩ := State.useCode_congr hcodes hdraws
    exact .inr (.inr ⟨(p.txn (s.answered + m)).addr, hnext ▸ State.raiseMemFault_responded _ _, hcode, hdraw,
      State.raiseMemFault_faultSeen _ _⟩)
  · exact .inr (.inl ⟨⟨rfl, rfl, rfl⟩, hcodes, hdraws, by simp [hseen]⟩)

/-- Settles O29: the outcomes of a run, for the plan of a command, whose own response is never a memory fault. -/
theorem commandsEndInOneOfThreeWays : Obligations.CommandsEndInOneOfThreeWays := by
  intro i s
  obtain ⟨hagenda, hrequest, hrefusing⟩ := s.runPlan_frame (planOf i)
  refine ⟨_, exec_eq_runPlan i s, hrequest, hrefusing, hagenda, ?_⟩
  have houtcomes := s.runPlan_outcomes (planOf i)
  rw [planOf_desc, planOf_final] at houtcomes
  rcases houtcomes with hpause | ⟨hresponded, hcodes, hdraws, hseen⟩ | hfault
  · exact .inl hpause
  · exact .inr (.inl ⟨hresponded, hcodes, hdraws, hseen.trans (Bool.or_false _)⟩)
  · exact .inr (.inr hfault)

end Sys2Proof.Machine
end

section
/-! PROOFS. The family 20_memory.md: what a store leaves in memory, OCA's own (O35), one torn by the memory (O44, O45) and
another agent's (O43); the write set of a command (O28); and the run of a command: to its response where nothing is refused
(O31), in turns (O32), over a pause (O33) and over a pause in which another agent writes elsewhere (O46). -/

namespace Sys2Proof.Machine

/-! ### What a store leaves in memory (spec/20_memory.md R44, R45, R54) -/

theorem Width.bits_eq (w : Width) : w.bits = 8 * w.bytes := by cases w <;> rfl

/-- Byte `k` of a transaction that is performed: one taken ahead stays, any other is written. -/
theorem State.byteAt_perform_byte (s : State) (t : Txn) {k : Nat} (hk : k < t.size.bytes) :
    (s.perform t).byteAt (byteAddr t.addr k) =
      if k ∈ s.landed then s.byteAt (byteAddr t.addr k) else BitVec.ofNat 8 (t.value.toNat / 256 ^ k) := by
  have hsize := Width.bytes_le t.size
  rw [State.byteAt_perform, byteAddr_sub t.addr (by omega), byteOf_eq]
  by_cases hlanded : k ∈ s.landed <;> simp [hk, hlanded]

theorem State.byteAt_otherWrite_byte (s : State) {size : Width} (A : Addr) (v : BitVec 64) {k : Nat}
    (hk : k < size.bytes) :
    (s.otherWrite size A v).byteAt (byteAddr A k) = BitVec.ofNat 8 (v.toNat / 256 ^ k) := by
  have hsize := Width.bytes_le size
  rw [State.byteAt_otherWrite, byteAddr_sub A (by omega), if_pos hk, byteOf_eq]

theorem State.byteAt_otherWrite_outside (s : State) {size : Width} {A : Addr} (v : BitVec 64) {x : Addr}
    (h : ¬inBytes A size.bytes x) : (s.otherWrite size A v).byteAt x = s.byteAt x := by
  have hsize := Width.bytes_le size
  rw [inBytes_iff _ _ (by omega)] at h
  rw [State.byteAt_otherWrite, if_neg h]

/-- A read gathers the bytes from its address: bit `i` is bit `i % 8` of byte `i / 8`. -/
theorem State.getLsbD_memRead {s : State} {A : Addr} {v : BitVec 64} {n : Nat}
    (h : ∀ k, k < n → s.byteAt (byteAddr A k) = byteOf v k) (i : Nat) :
    (s.memRead A n).getLsbD i = (decide (i < 8 * n) && v.getLsbD i) := by
  induction n with
  | zero => simp [State.memRead]
  | succ n ih =>
    rw [State.memRead, BitVec.getLsbD_or, ih fun k hk => h k (by omega), h n (by omega)]
    simp only [byteOf, BitVec.getLsbD_shiftLeft, BitVec.getLsbD_setWidth, BitVec.getLsbD_extractLsb']
    by_cases hlow : i < 8 * n
    · simp [hlow, show i < 8 * (n + 1) by omega]
    · rw [show 8 * n + (i - 8 * n) = i by omega]
      by_cases hi : i < 64
      · simp [hlow, hi, show i - 8 * n < 64 by omega, show i - 8 * n < 8 ↔ i < 8 * (n + 1) by omega]
      · simp [hi, v.getLsbD_of_ge i (by omega)]

/-- Reading the bytes of a value gives its low `8n` bits. -/
theorem State.memRead_toNat {s : State} {A : Addr} {v : BitVec 64} {n : Nat}
    (h : ∀ k, k < n → s.byteAt (byteAddr A k) = byteOf v k) : (s.memRead A n).toNat = v.toNat % 2 ^ (8 * n) := by
  apply Nat.eq_of_testBit_eq
  intro i
  rw [BitVec.testBit_toNat, State.getLsbD_memRead h, Nat.testBit_mod_two_pow, BitVec.testBit_toNat]

/-- Settles O35: with no byte taken ahead every byte of the store is written, and a read gathers them again. -/
theorem storeThenReadGivesValue : Obligations.StoreThenReadGivesValue := by
  intro s n A v hlanded
  have hbyte : ∀ k, k < n.bytes →
      (s.perform ⟨n, A, v⟩).byteAt (byteAddr A k) = BitVec.ofNat 8 (v.toNat / 256 ^ k) := by
    intro k hk
    rw [State.byteAt_perform_byte s ⟨n, A, v⟩ hk, if_neg (by simp [hlanded])]
  refine ⟨hbyte, fun x => State.byteAt_perform_outside s ⟨n, A, v⟩, ?_⟩
  rw [Width.bits_eq]
  exact State.memRead_toNat fun k hk => (hbyte k hk).trans (byteOf_eq v k).symm

/-- Settles O44: what is read off the port are the bytes taken ahead. -/
theorem landedBytesAreNotRewritten : Obligations.LandedBytesAreNotRewritten := by
  intro s t L hport k hk
  have hlanded : s.landed = L := by simp [State.landed, hport]
  rw [State.byteAt_perform_byte s t hk, hlanded]

/-- Where another agent's store is at the head of the agenda, the step is that store. -/
theorem step_write {s : State} {size : Width} {A : Addr} {v : BitVec 64} {rest : List Move}
    (h : s.agenda = .write size A v :: rest) : step s = .next ({ s with agenda := rest }.otherWrite size A v) :=
  step_other (by simp [State.otherMove, h])

/-- Settles O43: the step is the store, which touches memory alone. -/
theorem otherAgentsStore : Obligations.OtherAgentsStore := by
  intro s n A v rest hagenda
  exact ⟨_, step_write hagenda, fun k hk => State.byteAt_otherWrite_byte _ A v hk,
    fun x hx => State.byteAt_otherWrite_outside _ v hx, rfl, rfl, rfl, rfl, rfl, rfl⟩

/-! ### A byte taken ahead (spec/20_memory.md R43, R49, R52) -/

section ByteAhead
variable {s : State} {p : Pending} {k : Nat} (hport : s.port = some p)
include hport

theorem State.landByte_refused (h : s.admits p.txn.addr p.txn.size = false) : s.landByte k = s := by
  simp [State.landByte_of_port k hport, h]

theorem State.landByte_admitted (h : s.admits p.txn.addr p.txn.size = true) (hk : k < p.txn.size.bytes)
    (hnew : k ∉ p.landed) :
    s.landByte k =
      { s with
        mem := s.mem.write (byteAddr p.txn.addr k).toNat (byteOf p.txn.value k)
        inflight := s.inflight.map fun f => ⟨f.desc, f.done + performedAhead (some ⟨p.txn, k :: p.landed⟩)⟩
        port := some ⟨p.txn, k :: p.landed⟩ } := by
  simp [State.landByte_of_port k hport, h, hk, hnew]

/-- A byte that lands is written at its address, and no other. -/
theorem State.byteAt_landByte (h : s.admits p.txn.addr p.txn.size = true) (hk : k < p.txn.size.bytes)
    (hnew : k ∉ p.landed) (x : Addr) :
    (s.landByte k).byteAt x =
      if x = byteAddr p.txn.addr k then BitVec.ofNat 8 (p.txn.value.toNat / 256 ^ k) else s.byteAt x := by
  rw [State.landByte_admitted hport h hk hnew, State.byteAt, Memory.lookup_write, byteOf_eq]
  by_cases hx : x = byteAddr p.txn.addr k
  · simp [hx]
  · simp [hx, BitVec.toNat_inj, State.byteAt]

end ByteAhead

theorem performedAhead_of_whole {p : Pending} (h : ∀ j, j < p.txn.size.bytes → j ∈ p.landed) :
    performedAhead (some p) = 1 := by
  simp [performedAhead, Pending.whole_iff.2 h]

theorem step_land {s : State} {k : Nat} {rest : List Move} (h : s.agenda = .land k :: rest) :
    step s = .next (State.landByte k { s with agenda := rest }) :=
  step_other (by simp [State.otherMove, h])

/-- Settles O45: the step lands the byte if the transaction is admitted; `done` counts the transaction when the byte makes
it whole. -/
theorem oneByteMayLandAhead : Obligations.OneByteMayLandAhead := by
  intro s k p rest hagenda hport hk hnew
  refine ⟨_, step_land hagenda, by simp, by simp, by simp, ?_⟩
  have hport' : State.port { s with agenda := rest } = some p := hport
  cases hadmits : s.admits p.txn.addr p.txn.size with
  | false =>
    rw [State.landByte_refused hport' hadmits]
    exact ⟨fun _ _ => rfl, by simp, fun _ => ⟨rfl, rfl, rfl⟩⟩
  | true =>
    have hbyte := State.byteAt_landByte hport' hadmits hk hnew
    refine ⟨fun x hx => (hbyte x).trans (if_neg hx), fun _ => ?_, by simp⟩
    refine ⟨?_, (hbyte _).trans (if_pos rfl), ?_⟩ <;> rw [State.landByte_admitted hport' hadmits hk hnew]
    refine ⟨fun f hf => ⟨fun hall => ?_, fun ⟨j, hj, hne, hmissing⟩ => ?_⟩, fun hidle => by simp [hidle]⟩
    · have hwhole : performedAhead (some ⟨p.txn, k :: p.landed⟩) = 1 :=
        performedAhead_of_whole fun j hj => List.mem_cons.2 (hall j hj)
      simp [hf, hwhole]
    · have hpart : performedAhead (some ⟨p.txn, k :: p.landed⟩) = 0 :=
        performedAhead_of_missing hj (by simp [hne, hmissing])
      simp [hf, hpart]

/-! ### The write set of a command (spec/20_memory.md R48, R60) -/

theorem uaddoPlan_writes (w : Width) (d : Descriptor) (x : Addr) :
    (uaddoPlan w d).writes x ↔ inBytes d.addr w.bytes x ∨ x = flagAddr d.addr d.c := by
  constructor
  · rintro ⟨k, -, hin⟩
    cases k with
    | zero => exact .inl hin
    | succ k => exact .inr ((inBytes_one _ _).1 hin)
  · rintro (hin | hflag)
    · exact ⟨0, Nat.zero_lt_two, hin⟩
    · exact ⟨1, Nat.one_lt_two, (inBytes_one _ _).2 hflag⟩

theorem uaddcPlan_writes (w : Width) (d : Descriptor) (x : Addr) :
    (uaddcPlan w d).writes x ↔ inBytes d.addr w.bytes x :=
  ⟨fun ⟨_, _, hin⟩ => hin, fun hin => ⟨0, Nat.zero_lt_one, hin⟩⟩

theorem zfillPlan_writes (d : Descriptor) (x : Addr) : (zfillPlan d).writes x ↔ inBytes d.addr d.a.toNat x :=
  exists_congr fun _ => and_congr_right fun _ => inBytes_one _ _

/-- A run writes only the bytes of its plan's transactions. -/
theorem State.byteAt_runPlan_outside {p : Plan} {s : State} {x : Addr} (h : ¬p.writes x) :
    (s.runPlan p).byteAt x = s.byteAt x := by
  obtain ⟨m, hm, hc⟩ := s.runPlan_cases p
  have hperformed : (p.performed s.answered m s.endTurn).byteAt x = s.byteAt x :=
    (Plan.byteAt_performed_outside fun j hj hin => h ⟨_, (hm j hj).1, hin⟩).trans
      (State.byteAt_congr s.endTurn_mem x)
  rcases hc with ⟨-, h⟩ | ⟨-, -, -, h⟩ | ⟨-, -, h⟩ <;> rw [h]
  · exact hperformed
  · rwa [State.byteAt_raiseMemFault]
  · exact hperformed

theorem writesOnly_of_writes {i : Instr} {bytes : Addr → Prop} (h : ∀ x, (planOf i).writes x → bytes x) :
    WritesOnly i bytes :=
  fun s => ⟨_, exec_eq_runPlan i s, fun x hx => State.byteAt_runPlan_outside (mt (h x) hx)⟩

/-- Settles O28: a run writes only its plan's bytes, and each family's plan has the write set of R60. -/
theorem commandsWriteOnlyTheirBytes : Obligations.CommandsWriteOnlyTheirBytes := by
  intro a b c addr
  refine ⟨?_, ?_, ?_, ?_, ?_, ?_, ?_, ?_, ?_⟩ <;> apply writesOnly_of_writes
  · exact fun x => (uaddoPlan_writes .w8 _ x).1
  · exact fun x => (uaddoPlan_writes .w16 _ x).1
  · exact fun x => (uaddoPlan_writes .w32 _ x).1
  · exact fun x => (uaddoPlan_writes .w64 _ x).1
  · exact fun x => (uaddcPlan_writes .w8 _ x).1
  · exact fun x => (uaddcPlan_writes .w16 _ x).1
  · exact fun x => (uaddcPlan_writes .w32 _ x).1
  · exact fun x => (uaddcPlan_writes .w64 _ x).1
  · exact fun x => (zfillPlan_writes _ x).1

/-! ### A command with nothing refused (spec/20_memory.md R43; spec/60_exceptions.md R171, R173) -/

/-- An undisturbed command, with none of its transactions refused, gives its own response. -/
theorem State.runPlan_response_of_admitted {p : Plan} {s : State} (hquota : s.quota = none)
    (h : ∀ k, s.admitsTxn p k) : (s.runPlan p).response = some p.final := by
  rcases s.runPlan_ends p with ⟨hturn, -⟩ | ⟨-, -, r, hr, rfl | ⟨-, k, -, hrefused, -⟩⟩
  · simp [hquota] at hturn
  · exact hr
  · exact absurd (h k) hrefused

/-- Settles O31: of the three ways a command ends (O29), a pause needs a turn, and a memory fault is not its own response. -/
theorem noFaultWhenNothingIsRefused : Obligations.NoFaultWhenNothingIsRefused := by
  intro i s hquota hadmits
  obtain ⟨t, ht, hrequest, hrefusing, hagenda, hend⟩ := commandsEndInOneOfThreeWays i s
  rw [State.endTurn_of_quota_none hquota] at hagenda
  refine ⟨t, ht, ?_⟩
  rcases hend with ⟨-, hturn, -⟩ | ⟨hresponded, hcodes, hdraws, hseen⟩ | ⟨A, ⟨-, -, hfault⟩, -⟩
  · simp [hquota] at hturn
  · exact ⟨hresponded, hrequest, hrefusing, hcodes, hdraws, hagenda, hseen⟩
  · rw [exec_eq_runPlan] at ht
    cases ht
    rw [State.runPlan_response_of_admitted hquota fun k => hadmits _ _, planOf_final] at hfault
    cases hfault

/-! ### A command run in turns (spec/20_memory.md R42, R53) -/

section Advance
variable {p : Plan} {k : Nat} {s : State}

theorem State.advance_of_admitted (n : Nat) (hk : k < p.count) (h : s.admitsTxn p k) :
    s.advance p (n + 1) k = (s.perform (p.txn k)).advance p n (k + 1) := by
  unfold State.admitsTxn at h
  simp [State.advance, hk, h]

theorem State.advance_of_refused (n : Nat) (hk : k < p.count) (h : ¬s.admitsTxn p k) :
    s.advance p (n + 1) k = s.raiseMemFault (p.txn k).addr := by
  unfold State.admitsTxn at h
  simp [State.advance, hk, h]

theorem State.advance_of_last (n : Nat) (hk : p.count ≤ k) : s.advance p (n + 1) k = s.respond p.final := by
  simp [State.advance, Nat.not_lt.2 hk]

end Advance

theorem State.raiseMemFault_agenda (A : Addr) (s : State) (l : List Move) :
    State.raiseMemFault A { s with agenda := l } = { s.raiseMemFault A with agenda := l } := by
  cases hcodes : s.codes <;> simp [State.raiseMemFault, State.respond, State.useCode, State.nextCode, hcodes]

/-- The moves of a command do not read the agenda. -/
theorem State.advance_agenda (p : Plan) (n k : Nat) (s : State) (l : List Move) :
    State.advance p n k { s with agenda := l } = { s.advance p n k with agenda := l } := by
  induction n generalizing k s with
  | zero => rfl
  | succ n ih =>
    by_cases hk : k < p.count
    · by_cases h : s.admitsTxn p k
      · rw [State.advance_of_admitted n hk h, State.advance_of_admitted n hk (s := { s with agenda := l }) h]
        exact ih (k + 1) (s.perform (p.txn k))
      · rw [State.advance_of_refused n hk h, State.advance_of_refused n hk (s := { s with agenda := l }) h]
        exact s.raiseMemFault_agenda (p.txn k).addr l
    · rw [State.advance_of_last n (Nat.not_lt.1 hk), State.advance_of_last n (Nat.not_lt.1 hk)]
      rfl

/-- A turn of `n` moves is `n` moves of the command, and its entry is taken from the agenda. -/
theorem State.runPlan_of_turn {p : Plan} {s : State} {n : Nat} {rest : List Move} (h : s.agenda = .run n :: rest) :
    s.runPlan p = { s.advance p n s.answered with agenda := rest } := by
  rw [← State.advance_agenda]
  simp [State.runPlan, State.fuel, State.quota, State.endTurn, h]

/-- Settles O32: of all that `n` moves can do, only the pause after `n` transactions is left. -/
theorem turnPerformsTransactionsInOrder : Obligations.TurnPerformsTransactionsInOrder := by
  intro i s n rest hanswered hlanded hagenda hn hadmits
  refine ⟨_, exec_eq_runPlan i s, ?_⟩
  rw [State.runPlan_of_turn hagenda, hanswered]
  obtain ⟨m, -, hc⟩ := s.advance_cases (planOf i) n 0
  simp only [Nat.zero_add] at hc
  rcases hc with ⟨rfl, he⟩ | ⟨hm, -, hrefused, -⟩ | ⟨hm, hcount, -⟩
  · obtain ⟨-, -, hresponse, -⟩ := (planOf i).performed_frame 0 m s
    simp [he, Plan.performed_landed hlanded, hresponse, planOf_desc]
  · exact absurd (hadmits m hm) hrefused
  · omega

/-! ### A command run to its response (spec/20_memory.md R53) -/

/-- The command, undisturbed, from `k` transactions answered to its response. -/
def State.finish (p : Plan) (k : Nat) (s : State) : State := s.advance p (p.count - k + 1) k

theorem State.runPlan_of_quota_none {p : Plan} {s : State} (h : s.quota = none) :
    s.runPlan p = s.finish p s.answered := by
  rw [State.runPlan, State.endTurn_of_quota_none h, State.fuel_of_quota_none h, State.finish]

section Finish
variable {p : Plan} {k : Nat} {s : State}

theorem State.finish_of_admitted (hk : k < p.count) (h : s.admitsTxn p k) :
    s.finish p k = (s.perform (p.txn k)).finish p (k + 1) := by
  rw [State.finish, State.advance_of_admitted _ hk h, State.finish, Nat.sub_add_eq, Nat.sub_add_cancel (by omega)]

theorem State.finish_of_refused (hk : k < p.count) (h : ¬s.admitsTxn p k) :
    s.finish p k = s.raiseMemFault (p.txn k).addr :=
  State.advance_of_refused _ hk h

theorem State.finish_of_last (hk : p.count ≤ k) : s.finish p k = s.respond p.final :=
  State.advance_of_last _ hk

end Finish

/-- Induction over the transactions left: none, the next one refused, or the next one performed. -/
theorem State.finish_induct {p : Plan} {motive : Nat → State → Prop}
    (last : ∀ k s, p.count ≤ k → motive k s)
    (refused : ∀ k s, k < p.count → ¬s.admitsTxn p k → motive k s)
    (admitted : ∀ k s, k < p.count → s.admitsTxn p k → motive (k + 1) (s.perform (p.txn k)) → motive k s)
    (k : Nat) (s : State) : motive k s := by
  induction hleft : p.count - k generalizing k s with
  | zero => exact last k s (by omega)
  | succ n ih =>
    by_cases h : s.admitsTxn p k
    · exact admitted k s (by omega) h (ih _ _ (by omega))
    · exact refused k s (by omega) h

/-- A command finished after `m` of its transactions ends as it would have ended without the break. -/
theorem State.finish_performed {p : Plan} {k m : Nat} {s : State}
    (h : ∀ j, j < m → k + j < p.count ∧ s.admitsTxn p (k + j)) :
    (p.performed k m s).finish p (k + m) = s.finish p k := by
  induction m with
  | zero => rfl
  | succ m ih =>
    obtain ⟨hlt, hadmits⟩ := h m (by omega)
    rw [Plan.performed_succ, ← ih fun j hj => h j (by omega)]
    exact (State.finish_of_admitted hlt (by simpa [State.admitsTxn] using hadmits)).symm

/-! ### A pause (spec/20_memory.md R53; spec/60_exceptions.md R177) -/

theorem State.raiseMemFault_ports (A : Addr) (s : State) (f : Option InFlight) (q : Option Pending) :
    State.raiseMemFault A { s with inflight := f, port := q } = s.raiseMemFault A := by
  cases hcodes : s.codes <;> simp [State.raiseMemFault, State.respond, State.useCode, State.nextCode, hcodes]

/-- The end of a command clears the command in flight and the memory port, and on the way it reads of them only the bytes
taken ahead, where a transaction is left. -/
theorem State.finish_ports {p : Plan} {k : Nat} {s : State} {f : Option InFlight} {q : Option Pending}
    (h : k < p.count → State.landed { s with inflight := f, port := q } = s.landed) :
    State.finish p k { s with inflight := f, port := q } = s.finish p k := by
  induction k, s using State.finish_induct (p := p) generalizing q with
  | last k s hk =>
    rw [State.finish_of_last hk, State.finish_of_last hk]
    rfl
  | refused k s hk hrefused =>
    rw [State.finish_of_refused hk hrefused,
      State.finish_of_refused hk (s := { s with inflight := f, port := q }) hrefused]
    exact s.raiseMemFault_ports _ f q
  | admitted k s hk hadmits ih =>
    rw [State.finish_of_admitted hk hadmits,
      State.finish_of_admitted hk (s := { s with inflight := f, port := q }) hadmits, ← ih (q := none) fun _ => rfl]
    simp [State.perform, h hk]

theorem State.finish_pause {p : Plan} {k : Nat} {s : State} : (s.pause p k).finish p k = s.finish p k :=
  State.finish_ports fun hk => by simp [State.landed, Plan.pendingAt, hk]

/-- After up to `n` moves a command either stands BUSY, and finishing it gives the end it would have had without the stop,
or it has ended, and that is the end it would have had. -/
theorem State.advance_then_finish (p : Plan) (n k : Nat) (s : State) :
    ((s.advance p n k).inflight ≠ none →
      (s.advance p n k).finish p (s.advance p n k).answered = s.finish p k) ∧
    ((s.advance p n k).inflight = none → s.advance p n k = s.finish p k) := by
  obtain ⟨m, hm, hc⟩ := s.advance_cases p n k
  rw [← State.finish_performed hm]
  rcases hc with ⟨-, he⟩ | ⟨-, hk, hrefused, he⟩ | ⟨-, hk, he⟩ <;> rw [he]
  · refine ⟨fun _ => ?_, fun hidle => by cases hidle⟩
    rw [State.pause_answered, State.finish_pause]
  · rw [State.finish_of_refused hk (by simpa [State.admitsTxn] using hrefused)]
    exact ⟨fun hbusy => absurd rfl hbusy, fun _ => rfl⟩
  · rw [State.finish_of_last hk]
    exact ⟨fun hbusy => absurd rfl hbusy, fun _ => rfl⟩

/-- A turn, and after it the command undisturbed, is the command undisturbed. -/
theorem State.runPlan_turn_then_finish {p : Plan} {s : State} {n : Nat} {rest : List Move}
    (h : s.agenda = .run n :: rest) :
    ((s.runPlan p).inflight ≠ none →
      State.runPlan p { s.runPlan p with agenda := [] } = State.runPlan p { s with agenda := [] }) ∧
    ((s.runPlan p).inflight = none → State.runPlan p { s with agenda := [] } = { s.runPlan p with agenda := [] }) := by
  rw [State.runPlan_of_turn h, State.runPlan_of_quota_none rfl, State.runPlan_of_quota_none rfl]
  obtain ⟨hpause, hend⟩ := State.advance_then_finish p n s.answered { s with agenda := [] }
  rw [State.advance_agenda] at hpause hend
  exact ⟨hpause, fun hidle => (hend hidle).symm⟩

/-- Settles O33: the turn is all of the agenda. -/
theorem pauseAloneChangesNothing : Obligations.PauseAloneChangesNothing := by
  intro i s n hagenda
  have hrest : (s.runPlan (planOf i)).agenda = [] := by rw [State.runPlan_of_turn hagenda]
  have hsame : { s.runPlan (planOf i) with agenda := [] } = s.runPlan (planOf i) := by rw [← hrest]
  have hturn := State.runPlan_turn_then_finish (p := planOf i) hagenda
  rw [hsame] at hturn
  refine ⟨_, exec_eq_runPlan i s, ?_⟩
  simpa [exec_eq_runPlan] using hturn

/-! ### A pause in which another agent writes elsewhere (spec/20_memory.md R60; spec/70_reset_and_hazards.md R206) -/

/-- The response of a command does not depend on memory, and a byte that reads alike before it reads alike after it. -/
theorem State.finish_congr {p : Plan} {k : Nat} {s t : State} (hlanded : t.landed = s.landed)
    (hrefusing : t.refusing = s.refusing) (hcodes : t.codes = s.codes) (hdraws : t.draws = s.draws) :
    (t.finish p k).response = (s.finish p k).response ∧
    ∀ x, t.byteAt x = s.byteAt x → (t.finish p k).byteAt x = (s.finish p k).byteAt x := by
  induction k, s using State.finish_induct (p := p) generalizing t with
  | last k s hk =>
    rw [State.finish_of_last hk, State.finish_of_last hk]
    exact ⟨rfl, fun x hx => hx⟩
  | refused k s hk hrefused =>
    have hrefused' : ¬t.admitsTxn p k := by simpa [State.admitsTxn, State.admits, hrefusing] using hrefused
    rw [State.finish_of_refused hk hrefused, State.finish_of_refused hk hrefused']
    obtain ⟨-, -, hcode⟩ := State.useCode_congr hcodes hdraws
    exact ⟨by simp [State.raiseMemFault, hcode], fun x hx => by simpa [State.byteAt_raiseMemFault] using hx⟩
  | admitted k s hk hadmits ih =>
    have hadmits' : t.admitsTxn p k := by simpa [State.admitsTxn, State.admits, hrefusing] using hadmits
    rw [State.finish_of_admitted hk hadmits, State.finish_of_admitted hk hadmits']
    obtain ⟨hresponse, hbyte⟩ := ih (t := t.perform (p.txn k)) rfl hrefusing hcodes hdraws
    refine ⟨hresponse, fun x hx => hbyte x ?_⟩
    rw [State.byteAt_perform, State.byteAt_perform, hlanded, hx]

/-- A store by another agent before an undisturbed command changes no byte outside it, and not the response. -/
theorem State.runPlan_otherWrite (p : Plan) {s : State} (hquota : s.quota = none) (size : Width) (A : Addr)
    (v : BitVec 64) :
    ((s.otherWrite size A v).runPlan p).response = (s.runPlan p).response ∧
    ∀ x, ¬inBytes A size.bytes x → ((s.otherWrite size A v).runPlan p).byteAt x = (s.runPlan p).byteAt x := by
  rw [State.runPlan_of_quota_none hquota, State.runPlan_of_quota_none (s := s.otherWrite size A v) hquota]
  obtain ⟨hresponse, hbyte⟩ :=
    State.finish_congr (p := p) (k := s.answered) (s := s) (t := s.otherWrite size A v) rfl rfl rfl rfl
  exact ⟨hresponse, fun x hx => hbyte x (State.byteAt_otherWrite_outside s v hx)⟩

theorem State.runPlan_idle_of_quota_none {p : Plan} {s : State} (h : s.quota = none) : (s.runPlan p).inflight = none := by
  rcases s.runPlan_ends p with ⟨hturn, -⟩ | ⟨hidle, -⟩
  · simp [h] at hturn
  · exact hidle

/-- Settles O46: the undisturbed command ends as the paused one would with no store between (the turn rule of O33); the store
changes of that end only its own bytes, and these the command leaves alone. -/
theorem disjointWriterDoesNotInterfere : Obligations.DisjointWriterDoesNotInterfere := by
  intro i s n size A v hagenda hdisjoint
  refine ⟨_, exec_eq_runPlan i s, fun hbusy => ?_⟩
  have hrest : (s.runPlan (planOf i)).agenda = [.write size A v] := by rw [State.runPlan_of_turn hagenda]
  refine ⟨_, _, _, step_write hrest, exec_eq_runPlan i _, exec_eq_runPlan i _, State.runPlan_idle_of_quota_none rfl, ?_⟩
  rw [← (State.runPlan_turn_then_finish hagenda).1 hbusy]
  obtain ⟨hresponse, hbyte⟩ :=
    State.runPlan_otherWrite (planOf i) (s := { s.runPlan (planOf i) with agenda := [] }) rfl size A v
  refine ⟨hresponse, hbyte, fun k hk => ?_⟩
  rw [State.byteAt_runPlan_outside (hdisjoint _ ⟨k, hk, rfl⟩), State.byteAt_otherWrite_byte _ A v hk]

end Sys2Proof.Machine
end

section
/-! PROOFS. The family 30_encoding.md: the descriptor's layout and its decoder (O8 to O12), the bits a command ignores (O13),
the assembler (O14), the response's layout (O15), and what a step does with the request and response ports (O36, O38, O47). -/

namespace Sys2Proof.Machine

/-! ### The descriptor's layout (spec/30_encoding.md R71) -/

/-- Two bit vectors side by side, as a number. -/
theorem append_toNat {m n : Nat} (x : BitVec m) (y : BitVec n) : (x ++ y).toNat = y.toNat + x.toNat * 2 ^ n := by
  rw [BitVec.toNat_append, ← Nat.shiftLeft_add_eq_or_of_lt y.isLt, Nat.shiftLeft_eq, Nat.add_comm]

theorem Descriptor.toBits_toNat (d : Descriptor) :
    d.toBits.toNat =
      d.cmd.toNat + d.a.toNat * 2 ^ 8 + d.b.toNat * 2 ^ 72 + d.c.toNat * 2 ^ 136 + d.addr.toNat * 2 ^ 200 := by
  simp only [Descriptor.toBits, append_toNat]
  omega

/-- The five fields stand side by side, from bit 0 to bit 263. -/
theorem Descriptor.toBits_ofBits (D : BitVec 264) : (Descriptor.ofBits D).toBits = D := by
  simp only [Descriptor.ofBits, Descriptor.toBits]
  rw [BitVec.extractLsb'_append_extractLsb'_eq_extractLsb' (show 200 = 136 + 64 from rfl),
    BitVec.extractLsb'_append_extractLsb'_eq_extractLsb' (show 136 = 72 + 64 from rfl),
    BitVec.extractLsb'_append_extractLsb'_eq_extractLsb' (show 72 = 8 + 64 from rfl),
    BitVec.extractLsb'_append_extractLsb'_eq_extractLsb' (show 8 = 0 + 8 from rfl)]
  exact BitVec.extractLsb'_eq_self

/-- Settles O10. -/
theorem descriptorLayout : Obligations.DescriptorLayout := 
  fun d => ⟨Descriptor.toBits_toNat d, Descriptor.ofBits_toBits d⟩

/-- Settles O8: the fields are read back as they were put, and each of the nine codes selects its own command. -/
theorem decodeInvertsEncode : Obligations.DecodeInvertsEncode := by
  intro i
  rw [decodeBits, encode, Descriptor.ofBits_toBits, decode_descriptor]

/-- Settles O9: the command read has the descriptor it was read from, and that descriptor is all of the 264 bits. -/
theorem encodeInvertsDecode : Obligations.EncodeInvertsDecode := by
  intro D i h
  rw [encode, descriptor_of_decode h, Descriptor.toBits_ofBits]

/-! ### The nine codes and the reserved groups (spec/30_encoding.md R72, R74, R76) -/

/-- The group of a reserved code; none for the code of a command. -/
def reservedKind (cmd : BitVec 8) : Option ReservedKind :=
  if cmdFamily cmd = 1 ∨ cmdFamily cmd = 2 then
    if cmdReserved cmd = 0 then none else some .reservedBits
  else if cmdFamily cmd = 3 then
    if cmdReserved cmd = 0 ∧ cmdWidthCode cmd = 0 then none else some .zfillNibble
  else some .unknownFamily

/-- Branch by branch, the decoder tells a command from a reserved code by `cmd` alone. -/
theorem decode_cases (d : Descriptor) :
    (reservedKind d.cmd = none ∧ ∃ i, decode d = .instr i) ∨
    (∃ why, reservedKind d.cmd = some why ∧ decode d = .reserved why d.cmd) := by
  unfold decode reservedKind
  split_ifs <;> simp_all

theorem decode_instr_iff (d : Descriptor) : (∃ i, decode d = .instr i) ↔ reservedKind d.cmd = none := by
  rcases decode_cases d with ⟨hkind, i, h⟩ | ⟨why, hkind, h⟩ <;> simp [hkind, h]

theorem decode_reserved_iff (d : Descriptor) (why : ReservedKind) :
    decode d = .reserved why d.cmd ↔ reservedKind d.cmd = some why := by
  rcases decode_cases d with ⟨hkind, i, h⟩ | ⟨why, hkind, h⟩ <;> simp [hkind, h]

/-- The groups of R76 and the table of R74, each checked on all 256 values of `cmd`. -/
theorem reservedKind_groups (cmd : BitVec 8) :
    (reservedKind cmd = none ↔
      cmd ∈ ([0x10, 0x11, 0x12, 0x13, 0x20, 0x21, 0x22, 0x23, 0x30] : List (BitVec 8))) ∧
    (cmd.toNat / 16 ≠ 1 ∧ cmd.toNat / 16 ≠ 2 ∧ cmd.toNat / 16 ≠ 3 ↔ reservedKind cmd = some .unknownFamily) ∧
    ((0x14 ≤ cmd.toNat ∧ cmd.toNat ≤ 0x1F) ∨ (0x24 ≤ cmd.toNat ∧ cmd.toNat ≤ 0x2F) ↔
      reservedKind cmd = some .reservedBits) ∧
    (0x31 ≤ cmd.toNat ∧ cmd.toNat ≤ 0x3F ↔ reservedKind cmd = some .zfillNibble) := by
  revert cmd
  decide

/-- Settles O11. -/
theorem nineCodesAndReservedGroups : Obligations.NineCodesAndReservedGroups := by
  intro d
  simp only [decode_instr_iff, decode_reserved_iff]
  exact reservedKind_groups d.cmd

set_option exponentiation.threshold 300 in
/-- Settles O12, by running the decoder on each word. -/
theorem printedDescriptorsDecode : Obligations.PrintedDescriptorsDecode := by
  unfold Obligations.PrintedDescriptorsDecode
  decide

/-! ### Ignored bits (spec/30_encoding.md R73; spec/42_uaddc_carry.md R141) -/

theorem planOf_uaddo (w : Width) :
    ∃ cmd, ∀ a b c addr, planOf (Instr.uaddo w a b c addr) = uaddoPlan w ⟨cmd, a, b, c, addr⟩ := by
  cases w <;> exact ⟨_, fun _ _ _ _ => rfl⟩

theorem planOf_uaddc (w : Width) :
    ∃ cmd, ∀ a b c addr, planOf (Instr.uaddc w a b c addr) = uaddcPlan w ⟨cmd, a, b, c, addr⟩ := by
  cases w <;> exact ⟨_, fun _ _ _ _ => rfl⟩

/-- Two plans differ at most in the copy of the descriptor. -/
def Plan.SameActions (p q : Plan) : Prop := p.count = q.count ∧ p.txn = q.txn ∧ p.final = q.final

/-- A command run to its response performs its transactions and responds: it reads nothing else of its plan. -/
theorem State.finish_sameActions {p q : Plan} (h : p.SameActions q) (k : Nat) (s : State) :
    s.finish p k = s.finish q k := by
  obtain ⟨hcount, htxn, hfinal⟩ := h
  have hadmits {k : Nat} {s : State} : s.admitsTxn q k ↔ s.admitsTxn p k := by simp [State.admitsTxn, htxn]
  induction k, s using State.finish_induct (p := p) with
  | last k s hk => rw [State.finish_of_last hk, State.finish_of_last (hcount ▸ hk), hfinal]
  | refused k s hk hrefused =>
    rw [State.finish_of_refused hk hrefused, State.finish_of_refused (hcount ▸ hk) (mt hadmits.1 hrefused), htxn]
  | admitted k s hk hadmitted ih =>
    rw [State.finish_of_admitted hk hadmitted, State.finish_of_admitted (hcount ▸ hk) (hadmits.2 hadmitted), ih, htxn]

theorem exec_sameActions {i j : Instr} {s : State} (hquota : s.quota = none) (h : (planOf i).SameActions (planOf j)) :
    exec i s = exec j s := by
  simp only [exec_eq_runPlan, State.runPlan_of_quota_none hquota, State.finish_sameActions h]

theorem lowBits_congr {w : Width} {x y : Slot} (h : x.toNat % 2 ^ w.bits = y.toNat % 2 ^ w.bits) :
    lowBits w x = lowBits w y :=
  BitVec.eq_of_toNat_eq (by simpa [lowBits] using h)

theorem carryIn_congr {c c' : Slot} (h : c.toNat % 2 = c'.toNat % 2) : carryIn c = carryIn c' := by
  simp [carryIn, BitVec.getLsbD, h]

theorem uaddoResult_congr {w : Width} {a b a' b' : Slot} (h : SameOperands w a b a' b') :
    uaddoResult w a b = uaddoResult w a' b' := by
  rw [uaddoResult, lowBits_congr h.1, lowBits_congr h.2, uaddoResult]

theorem uaddcResult_congr {w : Width} {a b a' b' c c' : Slot} (h : SameOperands w a b a' b')
    (hc : c.toNat % 2 = c'.toNat % 2) : uaddcResult w a b c = uaddcResult w a' b' c' := by
  rw [uaddcResult, lowBits_congr h.1, lowBits_congr h.2, carryIn_congr hc, uaddcResult]

/-- Settles O13: the plans of the two commands differ at most in the copy of the descriptor, and the decoder reads `cmd`. -/
theorem ignoredBitsHaveNoEffect : Obligations.IgnoredBitsHaveNoEffect := by
  refine ⟨?_, ?_, ?_, ?_⟩
  · rintro w a b a' b' c addr s ⟨-, -, hquota⟩ hsame
    obtain ⟨cmd, hplan⟩ := planOf_uaddo w
    apply exec_sameActions hquota
    rw [hplan, hplan]
    simp [Plan.SameActions, uaddoPlan, uaddoSumStore, uaddoFlagStore, uaddoResult_congr hsame]
  · rintro w a b a' b' c c' addr s ⟨-, -, hquota⟩ hsame hcarry
    obtain ⟨cmd, hplan⟩ := planOf_uaddc w
    apply exec_sameActions hquota
    rw [hplan, hplan]
    simp [Plan.SameActions, uaddcPlan, uaddcCarryStore, uaddcResult_congr hsame hcarry]
  · rintro a b c b' c' addr s ⟨-, -, hquota⟩
    exact exec_sameActions hquota ⟨rfl, rfl, rfl⟩
  · intro d d' hcmd
    rw [decode_instr_iff, decode_instr_iff, hcmd]

/-! ### The assembler (spec/30_encoding.md R80, R81) -/

theorem Instr.uaddo_wellFormed (w : Width) (a b c : Slot) (addr : Addr) :
    (Instr.uaddo w a b c addr).wellFormed = true ↔ a.toNat < 2 ^ w.bits ∧ b.toNat < 2 ^ w.bits := by
  rw [← operandFits_iff, ← operandFits_iff, ← Bool.and_eq_true]
  cases w <;> rfl

theorem Instr.uaddc_wellFormed (w : Width) (a b c : Slot) (addr : Addr) :
    (Instr.uaddc w a b c addr).wellFormed = true ↔
      (a.toNat < 2 ^ w.bits ∧ b.toNat < 2 ^ w.bits) ∧ c.toNat < 2 := by
  rw [← operandFits_iff, ← operandFits_iff, ← carryFits_iff, ← Bool.and_eq_true, ← Bool.and_eq_true]
  cases w <;> rfl

theorem Instr.zfill_wellFormed (a b c : Slot) (addr : Addr) :
    (Instr.zfill a b c addr).wellFormed = true ↔ b = 0 ∧ c = 0 := by
  simp [Instr.wellFormed]

/-- The nine commands by family. -/
theorem Instr.family_cases (i : Instr) :
    (∃ w a b c addr, i = Instr.uaddo w a b c addr) ∨ (∃ w a b c addr, i = Instr.uaddc w a b c addr) ∨
    (∃ a b c addr, i = .zfill a b c addr) := by
  cases i with
  | uaddo8 => exact .inl ⟨.w8, _, _, _, _, rfl⟩
  | uaddo16 => exact .inl ⟨.w16, _, _, _, _, rfl⟩
  | uaddo32 => exact .inl ⟨.w32, _, _, _, _, rfl⟩
  | uaddo64 => exact .inl ⟨.w64, _, _, _, _, rfl⟩
  | uaddc8 => exact .inr (.inl ⟨.w8, _, _, _, _, rfl⟩)
  | uaddc16 => exact .inr (.inl ⟨.w16, _, _, _, _, rfl⟩)
  | uaddc32 => exact .inr (.inl ⟨.w32, _, _, _, _, rfl⟩)
  | uaddc64 => exact .inr (.inl ⟨.w64, _, _, _, _, rfl⟩)
  | zfill => exact .inr (.inr ⟨_, _, _, _, rfl⟩)

theorem widthOfBits_bits (w : Width) : widthOfBits w.bits = some w := by cases w <;> rfl

/-- Cutting a number to 64 bits makes it no larger. -/
theorem ofNat_lt_of_lt {n m : Nat} (h : n < m) : (BitVec.ofNat 64 n).toNat < m :=
  (Nat.mod_le n (2 ^ 64)).trans_lt h

theorem assembleUaddo_wellFormed {W l r t off : Nat} {i : Instr} (h : assembleUaddo W l r t off = .instr i) :
    i.wellFormed = true := by
  unfold assembleUaddo at h
  split at h
  · cases h
  · split_ifs at h with hfits hslots
    cases h
    rw [not_or, Nat.not_le, Nat.not_le] at hfits
    exact (Instr.uaddo_wellFormed ..).2 ⟨ofNat_lt_of_lt hfits.1, ofNat_lt_of_lt hfits.2⟩

theorem assembleUaddc_wellFormed {W l r cin p : Nat} {i : Instr} (h : assembleUaddc W l r cin p = .instr i) :
    i.wellFormed = true := by
  unfold assembleUaddc at h
  split at h
  · cases h
  · split_ifs at h with hfits hslots
    cases h
    rw [not_or, Nat.not_le, Nat.not_le] at hfits
    exact (Instr.uaddc_wellFormed ..).2
      ⟨⟨ofNat_lt_of_lt hfits.1, ofNat_lt_of_lt hfits.2⟩, ofNat_lt_of_lt (Nat.mod_lt cin Nat.two_pos)⟩

theorem assembleZfill_wellFormed {A L : Nat} {i : Instr} (h : assembleZfill A L = .instr i) : i.wellFormed = true := by
  unfold assembleZfill at h
  split_ifs at h
  cases h
  exact (Instr.zfill_wellFormed ..).2 ⟨rfl, rfl⟩

/-- A line is one of the three forms, under its mnemonic or another of its names, or it is rejected for its operands. -/
theorem assemble_cases (line : AsmLine) :
    (∃ W l r t off, assemble line = assembleUaddo W l r t off) ∨
    (∃ W l r cin p, assemble line = assembleUaddc W l r cin p) ∨
    (∃ A L, assemble line = assembleZfill A L) ∨ assemble line = .rejected .badOperands := by
  unfold assemble
  split
  · exact .inl ⟨_, _, _, _, _, rfl⟩
  · exact .inr (.inl ⟨_, _, _, _, _, rfl⟩)
  · exact .inr (.inr (.inl ⟨_, _, rfl⟩))
  · exact .inl ⟨_, _, _, _, _, rfl⟩
  · exact .inl ⟨_, _, _, _, _, rfl⟩
  · exact .inr (.inl ⟨_, _, _, _, _, rfl⟩)
  · exact .inr (.inl ⟨_, _, _, _, _, rfl⟩)
  · exact .inr (.inr (.inl ⟨_, _, rfl⟩))
  · exact .inr (.inr (.inl ⟨_, _, rfl⟩))
  · exact .inr (.inr (.inr rfl))

theorem assemble_wellFormed {line : AsmLine} {i : Instr} (h : assemble line = .instr i) : i.wellFormed = true := by
  rcases assemble_cases line with ⟨W, l, r, t, off, hl⟩ | ⟨W, l, r, cin, p, hl⟩ | ⟨A, L, hl⟩ | hl <;> rw [hl] at h
  · exact assembleUaddo_wellFormed h
  · exact assembleUaddc_wellFormed h
  · exact assembleZfill_wellFormed h
  · cases h

/-- The line that writes a well-formed command gives the numbers of its slots. -/
theorem exists_line_of_wellFormed {i : Instr} (h : i.wellFormed = true) : ∃ line, assemble line = .instr i := by
  rcases Instr.family_cases i with ⟨w, a, b, c, addr, rfl⟩ | ⟨w, a, b, c, addr, rfl⟩ | ⟨a, b, c, addr, rfl⟩
  · obtain ⟨ha, hb⟩ := (Instr.uaddo_wellFormed ..).1 h
    refine ⟨⟨.uaddo w.bits, [a.toNat, b.toNat, addr.toNat, c.toNat]⟩, ?_⟩
    simp [assemble, assembleUaddo, widthOfBits_bits, ha, hb, Nat.not_le.2, addr.isLt, c.isLt]
  · obtain ⟨⟨ha, hb⟩, hc⟩ := (Instr.uaddc_wellFormed ..).1 h
    refine ⟨⟨.uaddc w.bits, [a.toNat, b.toNat, c.toNat, addr.toNat]⟩, ?_⟩
    simp [assemble, assembleUaddc, widthOfBits_bits, ha, hb, Nat.not_le.2, addr.isLt, c.isLt, Nat.mod_eq_of_lt hc]
  · obtain ⟨rfl, rfl⟩ := (Instr.zfill_wellFormed ..).1 h
    refine ⟨⟨.zfill, [addr.toNat, a.toNat]⟩, ?_⟩
    simp [assemble, assembleZfill, Nat.not_le.2, addr.isLt, a.isLt]

/-- Settles O14: each of the six names of R81 stands for the form of its mnemonic. -/
theorem assemblerWritesWellFormed : Obligations.AssemblerWritesWellFormed :=
  ⟨fun _ _ => assemble_wellFormed, fun _ => exists_line_of_wellFormed,
    fun _ _ _ _ _ => ⟨rfl, rfl, rfl, rfl, rfl, rfl⟩⟩

/-! ### The response's layout (spec/30_encoding.md R77) -/

theorem Status.code_ne_three (st : Status) : st.code ≠ 3 := by cases st <;> decide

theorem Status.ofCode_code (st : Status) : Status.ofCode st.code = some st := by cases st <;> rfl

theorem Response.toBits_toNat (r : Response) :
    r.toBits.toNat = r.status.code.toNat + r.value.toNat * 2 ^ 2 + r.merr.toNat * 2 ^ 66 := by
  simp only [Response.toBits, append_toNat]
  omega

theorem Response.ofBits_toBits (r : Response) : Response.ofBits r.toBits = some r := by
  have hvalue : r.toBits.extractLsb' 2 64 = r.value := by
    rw [Response.toBits, BitVec.extractLsb'_append_eq_of_le (Nat.le_refl 2)]
    exact BitVec.extractLsb'_append_eq_right
  have hmerr : r.toBits.extractLsb' 66 8 = r.merr := by
    rw [Response.toBits, BitVec.extractLsb'_append_eq_of_le (by decide)]
    exact BitVec.extractLsb'_append_eq_left
  have hstatus : r.toBits.extractLsb' 0 2 = r.status.code := BitVec.extractLsb'_append_eq_right
  simp [Response.ofBits, hvalue, hmerr, hstatus, Status.ofCode_code]

/-- Settles O15. -/
theorem responseLayout : Obligations.ResponseLayout :=
  fun r => ⟨r.toBits_toNat, r.status.code_ne_three, r.ofBits_toBits⟩

/-! ### The request and response ports (spec/30_encoding.md R70, R77; spec/60_exceptions.md R181) -/

/-- Settles O38: the step runs the plan of the descriptor in flight, and a run leaves the request port as it is. -/
theorem busyInstanceAcceptsNothing : Obligations.BusyInstanceAcceptsNothing := by
  intro s f hmoves hbusy
  obtain ⟨-, hrequest, -⟩ := s.runPlan_frame (planOfDescriptor f.desc)
  exact ⟨by simp [State.ready, hbusy], _, step_busy hbusy (State.otherMove_none hmoves), hrequest⟩

/-- Serving the descriptor of a command is running that command. -/
theorem serve_of_decode {d : Descriptor} {i : Instr} (h : decode d = .instr i) (s : State) : serve d s = exec i s := by
  simp [serve, h]

/-- Settles O36: the step is the turn of OCA, which serves the descriptor presented, accepted first, or the one in flight. -/
theorem stepRunsDecodedCommand : Obligations.StepRunsDecodedCommand := by
  constructor
  · intro s D i hmoves hidle hrequest hdecode
    rw [step_of_otherMove_none (State.otherMove_none hmoves)]
    simp only [instanceTurn, hidle, hrequest]
    exact serve_of_decode hdecode (s.accept D)
  · intro s f i hmoves hbusy hdecode
    rw [step_of_otherMove_none (State.otherMove_none hmoves)]
    simp only [instanceTurn, hbusy]
    exact serve_of_decode hdecode s

/-- Settles O47: the step is the host's move. -/
theorem hostPresentsAndTakes : Obligations.HostPresentsAndTakes := by
  constructor
  · intro s D rest hagenda
    exact step_other (by simp [State.otherMove, hagenda, State.offer])
  · intro s rest hagenda
    exact step_other (by simp [State.otherMove, hagenda, State.takeResponse])

end Sys2Proof.Machine
end

section
/-! PROOFS. The family 40_adder.md: ADDO with its corner cases (O1), the three forms of its overflow test (O2) and its exact
decomposition (O3); ADDC as a whole (O4), the two carry masks (O5), and the laws of both (O6). Each addition is known by its
exact decomposition, sum plus overflow times `2^W`; ADDC's follows from those of its two steps. -/

namespace Sys2Proof.Machine

/-! ### ADDO (spec/40_adder.md R101, R105, R109) -/

theorem addo_sum_toNat {w : Width} (l r : BitVec w.bits) :
    (addo l r).1.toNat = (l.toNat + r.toNat) % 2 ^ w.bits :=
  BitVec.toNat_add l r

theorem addo_ovf_iff {w : Width} (l r : BitVec w.bits) : (addo l r).2 = true ↔ 2 ^ w.bits ≤ l.toNat + r.toNat := by
  simp only [addo, decide_eq_true_eq]

/-- Two numbers below `2^W` reach `2^W` at most once: what is left of their sum is in range. -/
theorem addo_exact {w : Width} (l r : BitVec w.bits) :
    l.toNat + r.toNat = (addo l r).1.toNat + (addo l r).2.toNat * 2 ^ w.bits := by
  have hl := l.isLt
  have hr := r.isLt
  rw [addo_sum_toNat]
  cases ho : (addo l r).2 with
  | false =>
    have hlt : ¬2 ^ w.bits ≤ l.toNat + r.toNat := by simp [← addo_ovf_iff, ho]
    rw [Nat.mod_eq_of_lt (by omega), Bool.toNat_false, Nat.zero_mul, Nat.add_zero]
  | true =>
    have hge := (addo_ovf_iff l r).1 ho
    rw [Nat.mod_eq_sub_mod hge, Nat.mod_eq_of_lt (by omega), Bool.toNat_true]
    omega

theorem addo_comm {w : Width} (l r : BitVec w.bits) : addo l r = addo r l := by
  simp only [addo, BitVec.add_comm l r, Nat.add_comm l.toNat]

@[simp] theorem addo_zero {w : Width} (l : BitVec w.bits) : addo l 0#w.bits = (l, false) := by
  simp [addo, l.isLt]

/-- The comparison form: the sum falls below `l` exactly when `2^W` was taken off, since `r < 2^W`. -/
theorem addo_ovf_iff_sum_lt {w : Width} (l r : BitVec w.bits) :
    (addo l r).2 = true ↔ (addo l r).1.toNat < l.toNat := by
  have hr := r.isLt
  have hexact := addo_exact l r
  cases ho : (addo l r).2 with
  | false => simp [ho] at hexact ⊢; omega
  | true => simp [ho] at hexact ⊢; omega

/-- Settles O3. -/
theorem addoExactDecomposition : Obligations.AddoExactDecomposition :=
  fun _ l r => ⟨(addo l r).1.isLt, addo_ovf_iff l r, addo_exact l r⟩

/-- Settles O1: the corner cases are closed facts for each of the four widths, but for the zero operand. -/
theorem addoSumAndOverflow : Obligations.AddoSumAndOverflow := by
  refine ⟨fun w l r => ⟨addo_sum_toNat l r, addo_ovf_iff l r⟩, fun w => ⟨addo_zero 0, ?_, ?_, addo_zero⟩, by decide⟩
  · cases w <;> decide
  · cases w <;> decide

/-! ### The three forms of the overflow test (spec/40_adder.md R102, R103, R104) -/

/-- The wider accumulator holds the exact sum, whose bit `W` is the overflow. -/
theorem ovfWide_eq {w : Width} (l r : BitVec w.bits) : ovfWide l r = (addo l r).2 :=
  calc ovfWide l r
    _ = (l.setWidth (w.bits + 1) + r.setWidth (w.bits + 1)).msb := (BitVec.msb_eq_getLsbD_last _).symm
    _ = BitVec.uaddOverflow l r := (BitVec.uaddOverflow_eq l r).symm

/-- The overflow is the carry out of bit `W-1`: the majority of the operands' top bits and the carry into them. -/
theorem addo_ovf_eq_majority {w : Width} (l r : BitVec w.bits) :
    (addo l r).2 = Bool.atLeastTwo (l.getLsbD (w.bits - 1)) (r.getLsbD (w.bits - 1))
      (BitVec.carry (w.bits - 1) l r false) := by
  have hw : w.bits - 1 + 1 = w.bits := by cases w <;> rfl
  rw [← BitVec.carry_succ, hw, BitVec.carry_width]
  rfl

/-- With `k` the carry into bit `W-1`, that bit of the trick word is the majority of `l[W-1]`, `r[W-1]` and `k`. -/
theorem ovfTrick_eq {w : Width} (l r : BitVec w.bits) : ovfTrick l r = (addo l r).2 := by
  have hw : w.bits - 1 < w.bits := by cases w <;> decide
  simp only [ovfTrick, ovfTrickWord, addo_ovf_eq_majority, BitVec.getLsbD_or, BitVec.getLsbD_and, BitVec.getLsbD_not,
    BitVec.getLsbD_add hw, hw, decide_true, Bool.true_and]
  generalize l.getLsbD (w.bits - 1) = x, r.getLsbD (w.bits - 1) = y, BitVec.carry (w.bits - 1) l r false = k
  revert x y k
  decide

/-- Settles O2. -/
theorem threeOverflowFormsAgree : Obligations.ThreeOverflowFormsAgree := by
  intro w l r
  refine ⟨?_, ovfWide_eq l r, ovfTrick_eq l r⟩
  rw [BitVec.setWidth_add _ _ (Nat.le_succ _)]
  simp [addo]

/-! ### ADDC (spec/40_adder.md R106, R107, R109) -/

/-- A first step that overflows leaves at most `2^W - 2`, which has room for the carry-in. -/
theorem addo_overflows_not_both {w : Width} (l r : BitVec w.bits) (cin : Bool) :
    ¬((addo l r).2 = true ∧ (addo (addo l r).1 (carryOperand w cin)).2 = true) := by
  rintro ⟨hfirst, hsecond⟩
  have hl := l.isLt
  have hr := r.isLt
  have hc := cin.toNat_lt
  have hexact := addo_exact l r
  rw [addo_ovf_iff, carryOperand_toNat] at hsecond
  simp only [hfirst, Bool.toNat_true] at hexact
  omega

theorem or_toNat_of_not_both {a b : Bool} (h : ¬(a = true ∧ b = true)) : (a || b).toNat = a.toNat + b.toNat := by
  revert a b
  decide

/-- The decompositions of the two steps add up, and at most one of the two overflows counts. -/
theorem addc_exact {w : Width} (l r : BitVec w.bits) (cin : Bool) :
    l.toNat + r.toNat + cin.toNat = (addc l r cin).1.toNat + (addc l r cin).2.toNat * 2 ^ w.bits := by
  have hboth := addo_overflows_not_both l r cin
  have hfirst := addo_exact l r
  have hsecond := addo_exact (addo l r).1 (carryOperand w cin)
  rw [carryOperand_toNat] at hsecond
  simp only [addc, or_toNat_of_not_both hboth, Nat.add_mul]
  omega

/-- Bits `W` and up of the exact sum are the overflow and nothing else. -/
theorem exact_div_eq_addc_ovf {w : Width} (l r : BitVec w.bits) (cin : Bool) :
    (l.toNat + r.toNat + cin.toNat) / 2 ^ w.bits = (addc l r cin).2.toNat := by
  rw [addc_exact, Nat.add_mul_div_right _ _ (Nat.two_pow_pos _), Nat.div_eq_of_lt (addc l r cin).1.isLt, Nat.zero_add]

theorem addc_sum_toNat {w : Width} (l r : BitVec w.bits) (cin : Bool) :
    (addc l r cin).1.toNat = (l.toNat + r.toNat + cin.toNat) % 2 ^ w.bits := by
  rw [addc_exact, Nat.add_mul_mod_self_right, Nat.mod_eq_of_lt (addc l r cin).1.isLt]

theorem addc_ovf_iff {w : Width} (l r : BitVec w.bits) (cin : Bool) :
    (addc l r cin).2 = true ↔ 2 ^ w.bits ≤ l.toNat + r.toNat + cin.toNat := by
  rw [← Nat.one_le_div_iff (Nat.two_pow_pos _), exact_div_eq_addc_ovf]
  cases (addc l r cin).2 <;> decide

/-- Settles O4. -/
theorem addcComputesExactSum : Obligations.AddcComputesExactSum :=
  fun _ l r cin => ⟨addo_overflows_not_both l r cin, addc_sum_toNat l r cin, addc_ovf_iff l r cin, addc_exact l r cin⟩

theorem addc_comm {w : Width} (l r : BitVec w.bits) (cin : Bool) : addc l r cin = addc r l cin := by
  simp only [addc, addo_comm l r]

theorem addc_false {w : Width} (l r : BitVec w.bits) : addc l r false = addo l r := by
  have hzero : carryOperand w false = 0 := BitVec.eq_of_toNat_eq (carryOperand_toNat w false)
  simp [addc, hzero]

/-- Settles O6: the comparison with `r` is the one with `l` for the operands exchanged. -/
theorem adderLaws : Obligations.AdderLaws :=
  fun _ l r c => ⟨addo_comm l r, addc_comm l r c, addc_false l r, addo_ovf_iff_sum_lt l r,
    addo_comm l r ▸ addo_ovf_iff_sum_lt r l⟩

/-! ### The carry masks (spec/40_adder.md R108) -/

/-- A mask shifted up to bit `n` tests the bits that stand from `n` on. -/
theorem and_shiftLeft_ne_zero_iff (x m n : Nat) : x &&& m <<< n ≠ 0 ↔ (x / 2 ^ n) &&& m ≠ 0 := by
  have h : x &&& m <<< n = (x >>> n &&& m) <<< n := by
    apply Nat.eq_of_testBit_eq
    intro i
    by_cases hi : n ≤ i <;> simp [hi]
  rw [h, Ne, Nat.shiftLeft_eq_zero_iff, Nat.shiftRight_eq_div_pow]

/-- Settles O5: from bit `W` on the exact sum is ADDC's overflow, a number 0 or 1, and both masks test its bit 0. -/
theorem carryMasksIndistinguishable : Obligations.CarryMasksIndistinguishable := by
  intro w l r cin
  simp only [and_shiftLeft_ne_zero_iff, exact_div_eq_addc_ovf]
  refine ⟨?_, fun j hj _ => ?_, ?_, ?_⟩
  · have hl := l.isLt
    have hr := r.isLt
    have hc := cin.toNat_lt
    rw [Nat.pow_succ]
    omega
  · rw [Nat.add_comm w.bits, ← Nat.testBit_div_two_pow, exact_div_eq_addc_ovf, Nat.testBit_bool_toNat]
    simp [Nat.ne_of_gt hj]
  · cases (addc l r cin).2 <;> decide
  · cases (addc l r cin).2 <;> decide

end Sys2Proof.Machine
end

section
/-! PROOFS. The family 41_uaddo_store.md: the whole effect of UADDO.W (O16), its flag over a byte of its sum (O17), its two
faults (O18) and its order (O19). What each of its two stores leaves is said once, for every width, and each statement reads
it off the state in which the run ends. -/

namespace Sys2Proof.Machine

/-! ### Reading bytes back (spec/20_memory.md R45) -/

/-- A read depends on its own bytes alone. -/
theorem State.memRead_congr {s t : State} {A : Addr} {n : Nat}
    (h : ∀ k, k < n → t.byteAt (byteAddr A k) = s.byteAt (byteAddr A k)) : t.memRead A n = s.memRead A n := by
  induction n with
  | zero => rfl
  | succ n ih => rw [State.memRead, State.memRead, ih fun k hk => h k (by omega), h n (by omega)]

@[simp] theorem State.respond_memRead (r : Response) (s : State) (A : Addr) (n : Nat) :
    (s.respond r).memRead A n = s.memRead A n :=
  State.memRead_congr fun _ _ => rfl

/-- A byte moved up to byte `n` of a 64-bit value loses no bit. -/
theorem byte_shiftLeft_toNat (b : Byte) {n : Nat} (hn : n < 8) :
    (b.setWidth 64 <<< (8 * n)).toNat = b.toNat <<< (8 * n) := by
  rw [BitVec.toNat_shiftLeft, BitVec.toNat_setWidth_of_le (by decide)]
  exact Nat.mod_eq_of_lt ((Nat.shiftLeft_lt b.isLt).trans_le (Nat.pow_le_pow_right Nat.two_pos (by omega)))

theorem State.memRead_lt (s : State) (A : Addr) {n : Nat} (hn : n ≤ 8) : (s.memRead A n).toNat < 2 ^ (8 * n) := by
  induction n with
  | zero => simp [State.memRead]
  | succ n ih =>
    rw [State.memRead, BitVec.toNat_or, byte_shiftLeft_toNat _ hn, Nat.mul_succ]
    refine Nat.or_lt_two_pow ?_ ?_
    · exact (ih (by omega)).trans (Nat.pow_lt_pow_right Nat.one_lt_two (by omega))
    · exact Nat.add_comm (8 * n) 8 ▸ Nat.shiftLeft_lt (s.byteAt (byteAddr A n)).isLt

/-- A read is little-endian: its last byte weighs most, and the bytes do not overlap. -/
theorem State.memRead_succ_toNat (s : State) (A : Addr) {n : Nat} (hn : n < 8) :
    (s.memRead A (n + 1)).toNat = (s.memRead A n).toNat + (s.byteAt (byteAddr A n)).toNat * 256 ^ n := by
  rw [State.memRead, BitVec.toNat_or, byte_shiftLeft_toNat _ hn, Nat.or_comm,
    ← Nat.shiftLeft_add_eq_or_of_lt (s.memRead_lt A hn.le), Nat.shiftLeft_eq, Nat.pow_mul, Nat.add_comm]

/-- Two reads that differ in byte `c` alone differ by that byte at its place. -/
theorem State.memRead_toNat_of_one_byte {s t : State} {A : Addr} {c n : Nat} (hn : n ≤ 8) (hc : c < n)
    (h : ∀ k, k < n → k ≠ c → t.byteAt (byteAddr A k) = s.byteAt (byteAddr A k)) :
    (t.memRead A n).toNat + (s.byteAt (byteAddr A c)).toNat * 256 ^ c =
      (s.memRead A n).toNat + (t.byteAt (byteAddr A c)).toNat * 256 ^ c := by
  induction n with
  | zero => omega
  | succ n ih =>
    rw [State.memRead_succ_toNat t A hn, State.memRead_succ_toNat s A hn]
    by_cases hlast : c = n
    · subst hlast
      rw [State.memRead_congr fun k hk => h k (by omega) (by omega)]
      omega
    · have hbelow := ih (by omega) (by omega) fun k hk => h k (by omega)
      rw [h n (by omega) (Ne.symm hlast)]
      omega

/-! ### The two stores of UADDO.W (spec/41_uaddo_store.md R120) -/

theorem overflowOf_le_one (w : Width) (sum : Nat) : overflowOf w sum ≤ 1 := by
  unfold overflowOf
  split <;> decide

theorem uaddoSumStore_value_toNat (w : Width) (d : Descriptor) :
    (uaddoSumStore w d).value.toNat = exactSum w d.a d.b % 2 ^ w.bits := by
  have hbits : w.bits ≤ 64 := by cases w <;> decide
  simp only [uaddoSumStore, uaddoResult, BitVec.toNat_setWidth_of_le hbits, addo_sum_toNat, lowBits, BitVec.toNat_setWidth,
    exactSum]

theorem ovfValue_decide (P : Prop) [Decidable P] : ovfValue (decide P) = BitVec.ofNat 64 (if P then 1 else 0) := by
  by_cases h : P <;> simp [h, ovfValue]

theorem uaddoFlagStore_eq (w : Width) (d : Descriptor) :
    uaddoFlagStore w d = ⟨.w8, flagAddr d.addr d.c, BitVec.ofNat 64 (overflowOf w (exactSum w d.a d.b))⟩ := by
  have hovf : (uaddoResult w d.a d.b).2 = decide (2 ^ w.bits ≤ exactSum w d.a d.b) := by
    rw [Bool.eq_iff_iff, uaddoResult, addo_ovf_iff, decide_eq_true_iff]
    simp only [lowBits, BitVec.toNat_setWidth, exactSum]
  rw [uaddoFlagStore, hovf, ovfValue_decide, overflowOf]

section Stores
variable {s : State} (w : Width) (d : Descriptor) (hlanded : s.landed = [])
include hlanded

/-- The sum store writes the bytes of the sum, no other byte, and the sum can be read back. -/
theorem State.perform_uaddoSumStore :
    (∀ k, k < w.bytes → (s.perform (uaddoSumStore w d)).byteAt (byteAddr d.addr k) =
      BitVec.ofNat 8 (exactSum w d.a d.b % 2 ^ w.bits / 256 ^ k)) ∧
    (∀ x, ¬inBytes d.addr w.bytes x → (s.perform (uaddoSumStore w d)).byteAt x = s.byteAt x) ∧
    ((s.perform (uaddoSumStore w d)).memRead d.addr w.bytes).toNat = exactSum w d.a d.b % 2 ^ w.bits := by
  have hstore := storeThenReadGivesValue s w d.addr (uaddoSumStore w d).value hlanded
  rwa [uaddoSumStore_value_toNat, Nat.mod_mod] at hstore

/-- The flag store writes the overflow at the flag address, no other byte, and the overflow can be read back. -/
theorem State.perform_uaddoFlagStore :
    (s.perform (uaddoFlagStore w d)).byteAt (flagAddr d.addr d.c) =
      BitVec.ofNat 8 (overflowOf w (exactSum w d.a d.b)) ∧
    (∀ x, x ≠ flagAddr d.addr d.c → (s.perform (uaddoFlagStore w d)).byteAt x = s.byteAt x) ∧
    ((s.perform (uaddoFlagStore w d)).memRead (flagAddr d.addr d.c) 1).toNat = overflowOf w (exactSum w d.a d.b) := by
  have hle := overflowOf_le_one w (exactSum w d.a d.b)
  obtain ⟨hbyte, hother, hread⟩ := storeThenReadGivesValue s .w8 (flagAddr d.addr d.c)
    (BitVec.ofNat 64 (overflowOf w (exactSum w d.a d.b))) hlanded
  rw [BitVec.toNat_ofNat, Nat.mod_eq_of_lt (b := 2 ^ 64) (by omega)] at hbyte hread
  rw [uaddoFlagStore_eq]
  refine ⟨?_, fun x hx => hother x (mt (inBytes_one _ _).1 hx), ?_⟩
  · simpa using hbyte 0 Nat.zero_lt_one
  · exact hread.trans (Nat.mod_eq_of_lt (Nat.lt_of_le_of_lt hle (by decide)))

end Stores

/-! ### The runs of UADDO.W (spec/41_uaddo_store.md R120, R125, R127) -/

/-- UADDO.W of each width runs its plan; only the code in its descriptor is the width's own. -/
theorem exec_uaddo (w : Width) :
    ∃ cmd, ∀ a b c addr s, (Instr.uaddo w a b c addr).descriptor = ⟨cmd, a, b, c, addr⟩ ∧
      exec (Instr.uaddo w a b c addr) s = .next (s.runPlan (uaddoPlan w ⟨cmd, a, b, c, addr⟩)) := by
  obtain ⟨cmd, hplan⟩ := planOf_uaddo w
  refine ⟨cmd, fun a b c addr s => ⟨?_, ?_⟩⟩
  · rw [← planOf_desc, hplan, uaddoPlan]
  · rw [exec_eq_runPlan, hplan]

section Runs
variable {s : State} {w : Width} {d : Descriptor}

theorem State.Begins.landed_nil (hbegins : s.Begins) : s.landed = [] := by
  obtain ⟨-, hlanded, -⟩ := hbegins
  exact hlanded

theorem State.runPlan_uaddo_completes (hbegins : s.Begins) (hsum : s.admits d.addr w = true)
    (hflag : s.admits (flagAddr d.addr d.c) .w8 = true) :
    s.runPlan (uaddoPlan w d) =
      ((s.perform (uaddoSumStore w d)).perform (uaddoFlagStore w d)).respond ⟨.ok, d.addr, 0⟩ := by
  refine State.runPlan_completes hbegins fun k hk => ?_
  cases k with
  | zero => exact hsum
  | succ k => exact hflag

theorem State.runPlan_uaddo_sum_refused (hbegins : s.Begins) (hsum : s.admits d.addr w = false) :
    s.runPlan (uaddoPlan w d) = s.raiseMemFault d.addr :=
  State.runPlan_faults hbegins Nat.zero_lt_two (fun _ hj => absurd hj (Nat.not_lt_zero _)) (ne_true_of_eq_false hsum)

theorem State.runPlan_uaddo_flag_refused (hbegins : s.Begins) (hsum : s.admits d.addr w = true)
    (hflag : s.admits (flagAddr d.addr d.c) .w8 = false) :
    s.runPlan (uaddoPlan w d) = (s.perform (uaddoSumStore w d)).raiseMemFault (flagAddr d.addr d.c) := by
  refine State.runPlan_faults (p := uaddoPlan w d) hbegins Nat.one_lt_two (fun j hj => ?_) (ne_true_of_eq_false hflag)
  obtain rfl := Nat.lt_one_iff.1 hj
  exact hsum

/-- One move of UADDO.W before another agent's: the sum store, and a pause. -/
theorem State.runPlan_uaddo_one_move {rest : List Move} (hanswered : s.answered = 0) (hagenda : s.agenda = .run 1 :: rest)
    (hsum : s.admits d.addr w = true) :
    s.runPlan (uaddoPlan w d) =
      { (s.perform (uaddoSumStore w d)).pause (uaddoPlan w d) 1 with agenda := rest } := by
  rw [State.runPlan_of_turn hagenda, hanswered, State.advance_of_admitted (p := uaddoPlan w d) 0 Nat.zero_lt_two hsum]
  rfl

end Runs

/-! ### The whole effect (spec/41_uaddo_store.md R128) -/

/-- Off the flag the flag store changes nothing, so what the sum store left is still there. -/
theorem uaddoStores (w : Width) : UaddoStores w (Instr.uaddo w) := by
  intro a b c addr s hbegins hsum hflag
  obtain ⟨cmd, hexec⟩ := exec_uaddo w
  refine ⟨_, (hexec a b c addr s).2, ?_⟩
  rw [State.runPlan_uaddo_completes hbegins hsum hflag]
  obtain ⟨hsumBytes, houtside, hsumRead⟩ := State.perform_uaddoSumStore w ⟨cmd, a, b, c, addr⟩ hbegins.landed_nil
  obtain ⟨hflagByte, hkept, hflagRead⟩ :=
    State.perform_uaddoFlagStore (s := s.perform (uaddoSumStore w ⟨cmd, a, b, c, addr⟩)) w ⟨cmd, a, b, c, addr⟩ rfl
  refine ⟨fun k hk hne => (hkept _ hne).trans (hsumBytes k hk), hflagByte,
    fun x hx hne => (hkept x hne).trans (houtside x hx), fun hdisjoint => ⟨?_, ?_⟩, ⟨rfl, rfl, rfl⟩,
    rfl, rfl, rfl, rfl, rfl, Bool.or_false _⟩
  · rw [State.respond_memRead, State.memRead_congr fun k hk => hkept _ (hdisjoint k hk).symm, hsumRead]
  · rw [State.respond_memRead, hflagRead]

/-- Settles O16: R128 for each of the four widths. -/
theorem uaddoWholeEffect : Obligations.UaddoWholeEffect :=
  ⟨uaddoStores .w8, uaddoStores .w16, uaddoStores .w32, uaddoStores .w64⟩

/-! ### The flag over a byte of the sum (spec/41_uaddo_store.md R126) -/

theorem flagAddr_eq_byteAddr (addr : Addr) (c : Slot) : flagAddr addr c = byteAddr addr c.toNat := by
  simp [flagAddr, byteAddr]

/-- The flag store changes byte `c` of the stored sum alone, so the two reads differ by that byte at its place. -/
theorem uaddoOverlaps (w : Width) : UaddoOverlaps w (Instr.uaddo w) := by
  intro a b c addr s hbegins hsum hflag hc
  obtain ⟨cmd, hexec⟩ := exec_uaddo w
  have hflagAt := flagAddr_eq_byteAddr addr c
  have hbytes := Width.bytes_le w
  refine ⟨_, (hexec a b c addr s).2, hflagAt, ?_⟩
  rw [State.runPlan_uaddo_completes hbegins hsum hflag, State.respond_memRead]
  obtain ⟨hsumBytes, -, hsumRead⟩ := State.perform_uaddoSumStore w ⟨cmd, a, b, c, addr⟩ hbegins.landed_nil
  obtain ⟨hflagByte, hkept, -⟩ :=
    State.perform_uaddoFlagStore (s := s.perform (uaddoSumStore w ⟨cmd, a, b, c, addr⟩)) w ⟨cmd, a, b, c, addr⟩ rfl
  have hchange := State.memRead_toNat_of_one_byte hbytes hc fun k hk hne => hkept _ fun heq =>
    hne (byteAddr_inj addr (by omega) c.isLt (heq.trans hflagAt))
  rw [hsumRead, hsumBytes _ hc, ← hflagAt, hflagByte, BitVec.toNat_ofNat, BitVec.toNat_ofNat,
    Nat.mod_eq_of_lt (Nat.lt_of_le_of_lt (overflowOf_le_one w _) (by decide))] at hchange
  have hfits : exactSum w a b % 2 ^ w.bits / 256 ^ c.toNat % 256 * 256 ^ c.toNat ≤ exactSum w a b % 2 ^ w.bits :=
    (Nat.mul_le_mul_right _ (Nat.mod_le _ _)).trans (Nat.div_mul_le_self _ _)
  rw [← Nat.sub_add_comm hfits]
  exact Nat.eq_sub_of_add_eq hchange

/-- Settles O17: R126 for each of the four widths. -/
theorem uaddoOverlapDamagesOneByte : Obligations.UaddoOverlapDamagesOneByte :=
  ⟨uaddoOverlaps .w8, uaddoOverlaps .w16, uaddoOverlaps .w32, uaddoOverlaps .w64⟩

/-! ### The two faults (spec/41_uaddo_store.md R127) -/

theorem State.raiseMemFault_faulted (A : Addr) (s : State) : Faulted s (s.raiseMemFault A) A :=
  ⟨State.raiseMemFault_responded A s, State.useCode_request s, State.useCode_refusing s, State.useCode_agenda s⟩

/-- The fault itself changes no byte: what stands is what was stored before it. -/
theorem uaddoFaults (w : Width) : UaddoFaults w (Instr.uaddo w) := by
  intro a b c addr s hbegins
  obtain ⟨cmd, hexec⟩ := exec_uaddo w
  refine ⟨fun hsum => ⟨_, (hexec a b c addr s).2, ?_⟩, fun hsum hflag => ⟨_, (hexec a b c addr s).2, ?_⟩⟩
  · rw [State.runPlan_uaddo_sum_refused hbegins hsum]
    exact ⟨State.byteAt_raiseMemFault s addr, State.raiseMemFault_faulted addr s⟩
  · rw [State.runPlan_uaddo_flag_refused hbegins hsum hflag]
    obtain ⟨hsumBytes, houtside, -⟩ := State.perform_uaddoSumStore w ⟨cmd, a, b, c, addr⟩ hbegins.landed_nil
    simp only [State.byteAt_raiseMemFault]
    exact ⟨hsumBytes, houtside, State.raiseMemFault_faulted (flagAddr addr c) (s.perform _)⟩

/-- Settles O18: R127 for each of the four widths. -/
theorem uaddoRefusedStores : Obligations.UaddoRefusedStores :=
  ⟨uaddoFaults .w8, uaddoFaults .w16, uaddoFaults .w32, uaddoFaults .w64⟩

/-! ### The order of the two stores (spec/41_uaddo_store.md R125; spec/10_state.md R27) -/

/-- The pause changes no byte, and issues the flag store. -/
theorem uaddoSumFirst (w : Width) : UaddoSumFirst w (Instr.uaddo w) := by
  intro a b c addr s rest hanswered hlanded hagenda hsum
  obtain ⟨cmd, hexec⟩ := exec_uaddo w
  obtain ⟨hdesc, hrun⟩ := hexec a b c addr s
  refine ⟨_, hrun, ?_⟩
  rw [State.runPlan_uaddo_one_move hanswered hagenda hsum, hdesc]
  obtain ⟨hsumBytes, houtside, -⟩ := State.perform_uaddoSumStore w ⟨cmd, a, b, c, addr⟩ hlanded
  refine ⟨hsumBytes, houtside, rfl, ?_, rfl, rfl⟩
  exact congrArg (fun t => some (Pending.mk t [])) (uaddoFlagStore_eq w ⟨cmd, a, b, c, addr⟩)

/-- Settles O19: R125 for each of the four widths. -/
theorem uaddoSumBeforeFlag : Obligations.UaddoSumBeforeFlag :=
  ⟨uaddoSumFirst .w8, uaddoSumFirst .w16, uaddoSumFirst .w32, uaddoSumFirst .w64⟩

end Sys2Proof.Machine
end

section
/-! PROOFS. The family 42_uaddc_carry.md: the law of the carry chain (O7), the whole effect of UADDC.W (O20) and its fault
(O21), and the chain that the host runs through memory (O22). For the last, what the other agents' moves leave alone is one
relation between two states, which every step of a limb's issue keeps. A limb's issue ends with its sum at the host and its
carry in the cell, so the host's chain gives what the pure chain gives. -/

namespace Sys2Proof.Machine

/-! ### The carry chain (spec/42_uaddc_carry.md R150) -/

/-- Settles O7, by induction on the limbs: the first limb's sum is exact, and its carry-out, of weight `2^W`, is the carry-in
of the rest. -/
theorem carryChainLaw : Obligations.CarryChainLaw := by
  intro w limbs c
  induction limbs generalizing c with
  | nil => simp [chain, limbsValue]
  | cons limb rest ih =>
    obtain ⟨x, y⟩ := limb
    obtain ⟨hlength, hrest⟩ := ih (addc x y c).2
    have hlimb := addc_exact x y c
    refine ⟨by simp [chain, hlength], ?_⟩
    simp only [chain, limbsValue, List.map_cons, List.length_cons, Nat.mul_succ, Nat.pow_add]
    linear_combination hlimb + 2 ^ w.bits * hrest

/-! ### The one store of UADDC.W (spec/42_uaddc_carry.md R140, R146, R149) -/

theorem uaddcCarryStore_eq (w : Width) (d : Descriptor) :
    uaddcCarryStore w d = ⟨w, d.addr, BitVec.ofNat 64 (overflowOf w (exactSumWithCarry w d.a d.b d.c))⟩ := by
  have hovf : (uaddcResult w d.a d.b d.c).2 = decide (2 ^ w.bits ≤ exactSumWithCarry w d.a d.b d.c) := by
    rw [Bool.eq_iff_iff, uaddcResult, addc_ovf_iff, decide_eq_true_iff, carryIn_toNat]
    simp only [lowBits, BitVec.toNat_setWidth, exactSumWithCarry, exactSum]
  rw [uaddcCarryStore, hovf, ovfValue_decide, overflowOf, carryOutSize]

/-- The carry-out store writes the carry in its first byte and 0 in the others, no other byte, and the carry can be read
back. -/
theorem State.perform_uaddcCarryStore {s : State} (w : Width) (d : Descriptor) (hlanded : s.landed = []) :
    (s.perform (uaddcCarryStore w d)).byteAt d.addr =
      BitVec.ofNat 8 (overflowOf w (exactSumWithCarry w d.a d.b d.c)) ∧
    (∀ k, 1 ≤ k → k < w.bytes → (s.perform (uaddcCarryStore w d)).byteAt (byteAddr d.addr k) = 0) ∧
    (∀ x, ¬inBytes d.addr w.bytes x → (s.perform (uaddcCarryStore w d)).byteAt x = s.byteAt x) ∧
    ((s.perform (uaddcCarryStore w d)).memRead d.addr w.bytes).toNat =
      overflowOf w (exactSumWithCarry w d.a d.b d.c) := by
  have hle := overflowOf_le_one w (exactSumWithCarry w d.a d.b d.c)
  obtain ⟨hbyte, hother, hread⟩ := storeThenReadGivesValue s w d.addr
    (BitVec.ofNat 64 (overflowOf w (exactSumWithCarry w d.a d.b d.c))) hlanded
  rw [BitVec.toNat_ofNat, Nat.mod_eq_of_lt (b := 2 ^ 64) (by omega)] at hbyte hread
  rw [uaddcCarryStore_eq]
  refine ⟨?_, fun k hpos hk => ?_, hother, ?_⟩
  · simpa using hbyte 0 (by cases w <;> decide)
  · have hlt : 1 < 256 ^ k := Nat.one_lt_pow (by omega) (by decide)
    rw [hbyte k hk, Nat.div_eq_of_lt (by omega)]
    rfl
  · have hlt : 1 < 2 ^ w.bits := by cases w <;> decide
    rw [hread, Nat.mod_eq_of_lt (by omega)]

/-! ### The whole effect and the fault (spec/42_uaddc_carry.md R147, R148) -/

section Runs
variable {s : State} {w : Width} {d : Descriptor}

theorem State.runPlan_uaddc_completes (hbegins : s.Begins) (hadmits : s.admits d.addr w = true) :
    s.runPlan (uaddcPlan w d) = (s.perform (uaddcCarryStore w d)).respond
      ⟨.ok, BitVec.ofNat 64 (exactSumWithCarry w d.a d.b d.c % 2 ^ w.bits), 0⟩ := by
  rw [← uaddcPlan_final]
  exact State.runPlan_completes (p := uaddcPlan w d) hbegins fun _ _ => hadmits

theorem State.runPlan_uaddc_refused (hbegins : s.Begins) (hrefused : s.admits d.addr w = false) :
    s.runPlan (uaddcPlan w d) = s.raiseMemFault d.addr :=
  State.runPlan_faults hbegins Nat.zero_lt_one (fun _ hj => absurd hj (Nat.not_lt_zero _)) (ne_true_of_eq_false hrefused)

end Runs

theorem uaddcStores (w : Width) : UaddcStores w (Instr.uaddc w) := by
  intro a b c addr s hbegins hadmits
  obtain ⟨cmd, hplan⟩ := planOf_uaddc w
  refine ⟨_, exec_eq_runPlan _ s, ?_⟩
  rw [hplan, State.runPlan_uaddc_completes hbegins hadmits, State.respond_memRead]
  obtain ⟨hfirst, hzero, houtside, hread⟩ :=
    State.perform_uaddcCarryStore w ⟨cmd, a, b, c, addr⟩ hbegins.landed_nil
  exact ⟨hfirst, hzero, houtside, hread, ⟨rfl, rfl, rfl⟩, rfl, rfl, rfl, rfl, rfl, Bool.or_false _⟩

/-- Settles O20: R148 for each of the four widths. -/
theorem uaddcWholeEffect : Obligations.UaddcWholeEffect :=
  ⟨uaddcStores .w8, uaddcStores .w16, uaddcStores .w32, uaddcStores .w64⟩

/-- The refused store is the command's first, so nothing has been stored before the fault. -/
theorem uaddcFaults (w : Width) : UaddcFaults (Instr.uaddc w) w := by
  intro a b c addr s hbegins hrefused
  obtain ⟨cmd, hplan⟩ := planOf_uaddc w
  refine ⟨_, exec_eq_runPlan _ s, ?_⟩
  rw [hplan, State.runPlan_uaddc_refused hbegins hrefused]
  exact ⟨State.byteAt_raiseMemFault s addr, State.raiseMemFault_faulted addr s⟩

/-- Settles O21: R147 for each of the four widths. -/
theorem uaddcRefusedStore : Obligations.UaddcRefusedStore :=
  ⟨uaddcFaults .w8, uaddcFaults .w16, uaddcFaults .w32, uaddcFaults .w64⟩

/-! ### What changes while other agents store elsewhere (spec/20_memory.md R54; spec/70_reset_and_hazards.md R208) -/

/-- No other agent's store among the moves is to the byte `x`. -/
def Untouched (moves : List Move) (x : Addr) : Prop :=
  ∀ size A v, Move.write size A v ∈ moves → ¬inBytes A size.bytes x

/-- From `s` to `t` no byte has changed but those of `bytes` and those that stores on the agenda of `s` are to; the
refused pairs are the same, and no move has come on the agenda. -/
structure ChangesOnly (bytes : Addr → Prop) (s t : State) : Prop where
  refusing : t.refusing = s.refusing
  agenda : t.agenda ⊆ s.agenda
  byteAt : ∀ x, ¬bytes x → Untouched s.agenda x → t.byteAt x = s.byteAt x

theorem LeavesAlone.untouched {A : Addr} {n : Nat} {moves : List Move} {x : Addr} (h : LeavesAlone A n moves)
    (hx : inBytes A n x) : Untouched moves x :=
  fun size B v hmem hin => h.2 size B v hmem x hin hx

theorem LeavesAlone.no_reset {A : Addr} {n : Nat} {moves : List Move} (h : LeavesAlone A n moves) :
    Move.reset ∉ moves := h.1

section ChangesOnly
variable {bytes : Addr → Prop} {s t u : State}

theorem ChangesOnly.refl (bytes : Addr → Prop) (s : State) : ChangesOnly bytes s s :=
  ⟨rfl, List.Subset.refl _, fun _ _ _ => rfl⟩

theorem ChangesOnly.trans (hst : ChangesOnly bytes s t) (htu : ChangesOnly bytes t u) : ChangesOnly bytes s u where
  refusing := htu.refusing.trans hst.refusing
  agenda := List.Subset.trans htu.agenda hst.agenda
  byteAt x hx hfree :=
    (htu.byteAt x hx fun size A v hmem => hfree size A v (hst.agenda hmem)).trans (hst.byteAt x hx hfree)

theorem ChangesOnly.mono {bytes' : Addr → Prop} (h : ChangesOnly bytes s t) (hle : ∀ x, bytes x → bytes' x) :
    ChangesOnly bytes' s t :=
  ⟨h.refusing, h.agenda, fun x hx => h.byteAt x (mt (hle x) hx)⟩

/-- The request port is not among what is compared. -/
theorem ChangesOnly.of_offer {D : BitVec 264} (h : ChangesOnly bytes (s.offer D) t) : ChangesOnly bytes s t :=
  ⟨h.refusing, h.agenda, h.byteAt⟩

/-- The response port is not among what is compared. -/
theorem ChangesOnly.takeResponse (h : ChangesOnly bytes s t) : ChangesOnly bytes s t.takeResponse :=
  ⟨h.refusing, h.agenda, h.byteAt⟩

theorem ChangesOnly.admits (h : ChangesOnly bytes s t) (A : Addr) (n : Width) : t.admits A n = s.admits A n := by
  simp [State.admits, h.refusing]

theorem ChangesOnly.leavesAlone {A : Addr} {n : Nat} (h : ChangesOnly bytes s t) (halone : LeavesAlone A n s.agenda) :
    LeavesAlone A n t.agenda := by
  obtain ⟨hreset, hwrite⟩ := halone
  exact ⟨fun hmem => hreset (h.agenda hmem), fun size B v hmem => hwrite size B v (h.agenda hmem)⟩

/-- Of a step only what it does to the bytes is to be shown. -/
theorem ChangesOnly.of_step (h : step s = .next t)
    (hbyte : ∀ x, ¬bytes x → Untouched s.agenda x → t.byteAt x = s.byteAt x) : ChangesOnly bytes s t :=
  ⟨admissionNeverChanges s t h, step_agenda h ▸ List.tail_subset _, hbyte⟩

/-- Another agent's move, if it is no reset, changes besides its own bytes only those of the transaction pending. -/
theorem ChangesOnly.of_otherMove (h : s.otherMove = some t) (hreset : Move.reset ∉ s.agenda)
    (hport : ∀ q, s.port = some q → ∀ x, inBytes q.txn.addr q.txn.size.bytes x → bytes x) : ChangesOnly bytes s t :=
  .of_step (step_other h) fun x hx hfree =>
    State.byteAt_otherMove h hreset hfree fun q hq hin => hx (hport q hq x hin)

end ChangesOnly

/-! ### Other agents' moves while OCA is IDLE (spec/20_memory.md R54) -/

/-- IDLE with no transaction pending. -/
def Quiet (s : State) : Prop := s.inflight = none ∧ s.port = none

/-- With no transaction pending, other agents' moves change only the bytes they store to, and leave OCA quiet. -/
theorem Quiet.otherMove {s t : State} (hquiet : Quiet s) (h : s.otherMove = some t) (hreset : Move.reset ∉ s.agenda) :
    Quiet t ∧ ChangesOnly (fun _ => False) s t := by
  obtain ⟨hidle, hport⟩ := hquiet
  refine ⟨?_, .of_otherMove h hreset fun q hq => by simp [hport] at hq⟩
  rcases State.otherMove_cases h with
    ⟨D, rest, -, rfl⟩ | ⟨rest, -, rfl⟩ | ⟨size, A, v, rest, -, rfl⟩ | ⟨k, rest, -, rfl⟩ | ⟨rest, -, rfl⟩
  · exact ⟨hidle, hport⟩
  · exact ⟨hidle, hport⟩
  · exact ⟨hidle, hport⟩
  · rcases State.landByte_cases k { s with agenda := rest } with hsame | ⟨q, hq, -⟩
    · rw [hsame]
      exact ⟨hidle, hport⟩
    · simp [hport] at hq
  · exact ⟨by simp, by simp⟩

/-- The moves before a host's action change only the bytes they store to, and leave OCA quiet. -/
theorem Quiet.beforeHost {s : State} (hquiet : Quiet s) (hreset : Move.reset ∉ s.agenda) :
    Quiet s.beforeHost ∧ ChangesOnly (fun _ => False) s s.beforeHost := by
  refine State.othersMove_keeps (P := fun u => Quiet u ∧ ChangesOnly (fun _ => False) s u) (fun u v hu hv => ?_) _ s
    ⟨hquiet, .refl _ s⟩
  obtain ⟨hquiet', hchanges⟩ := hu
  obtain ⟨hquiet'', hchanges'⟩ := hquiet'.otherMove hv fun hmem => hreset (hchanges.agenda hmem)
  exact ⟨hquiet'', hchanges.trans hchanges'⟩

/-! ### A limb in flight (spec/42_uaddc_carry.md R140, R151) -/

/-- Memory holds at byte `k` of the carry cell what the limb stores there. -/
def CarryByte (w : Width) (d : Descriptor) (s : State) (k : Nat) : Prop :=
  s.byteAt (byteAddr d.addr k) = byteOf (uaddcCarryStore w d).value k

/-- With `n` transactions answered, what of the carry has been stored stands in the cell: all of it once the store has been
answered, and before that the bytes taken ahead. -/
def CarryStands (w : Width) (d : Descriptor) (n : Nat) (s : State) : Prop :=
  n ≤ 1 ∧ ∀ k, k < w.bytes → (n = 1 ∨ k ∈ s.landed) → CarryByte w d s k

/-- The limb is in flight, and its store is pending until it has been answered. -/
def LimbInFlight (w : Width) (d : Descriptor) (s : State) : Prop :=
  s.inflight.map InFlight.desc = some d ∧ s.port = (uaddcPlan w d).pendingAt s.answered s.landed ∧
    CarryStands w d s.answered s

/-- The limb has ended: nothing pending, its sum on the response port and its carry in the cell. -/
def LimbEnded (w : Width) (d : Descriptor) (t : State) : Prop :=
  t.port = none ∧ t.response = some (uaddcPlan w d).final ∧ ∀ k, k < w.bytes → CarryByte w d t k

theorem State.pause_landed_subset (p : Plan) (k : Nat) (s : State) : (s.pause p k).landed ⊆ s.landed := by
  by_cases hk : k < p.count <;> simp [State.landed, Plan.pendingAt, hk]

section Limb
variable {w : Width} {d : Descriptor} {s t : State}

/-- When the store is answered, a byte taken ahead stays and any other is written. -/
theorem CarryByte.of_perform {k : Nat} (hk : k < w.bytes) (h : k ∈ s.landed → CarryByte w d s k) :
    CarryByte w d (s.perform (uaddcCarryStore w d)) k := by
  refine (State.byteAt_perform_byte s (uaddcCarryStore w d) hk).trans ?_
  rw [← byteOf_eq]
  by_cases hlanded : k ∈ s.landed
  · rw [if_pos hlanded]
    exact h hlanded
  · rw [if_neg hlanded]

/-- A run performs the store at most once, and only where it has not been answered. -/
theorem CarryStands.performed {m : Nat} (h : CarryStands w d s.answered s)
    (hm : ∀ j, j < m → s.answered + j < (uaddcPlan w d).count) :
    CarryStands w d (s.answered + m) ((uaddcPlan w d).performed s.answered m s.endTurn) := by
  obtain ⟨hanswered, hbyte⟩ := h
  have hsame : ∀ k, CarryByte w d s k → CarryByte w d s.endTurn k :=
    fun k => (State.byteAt_congr s.endTurn_mem _).trans
  cases m with
  | zero => exact ⟨hanswered, fun k hk hdone => hsame k (hbyte k hk (by simpa using hdone))⟩
  | succ m =>
    have hlast : s.answered + m < 1 := hm m (by omega)
    obtain rfl : m = 0 := by omega
    refine ⟨hlast, fun k hk _ => CarryByte.of_perform hk fun hlanded => hsame k (hbyte k hk (.inr ?_))⟩
    simpa using hlanded

/-- The limb's own turn, with its store admitted: it pauses in flight, or it ends with the store answered. -/
theorem CarryStands.runPlan (h : CarryStands w d s.answered s) (hadmits : s.admits d.addr w = true) :
    LimbInFlight w d (s.runPlan (uaddcPlan w d)) ∨
    ((s.runPlan (uaddcPlan w d)).inflight = none ∧ LimbEnded w d (s.runPlan (uaddcPlan w d))) := by
  obtain ⟨m, hm, hc⟩ := s.runPlan_cases (uaddcPlan w d)
  obtain ⟨hle, hbyte⟩ := h.performed fun j hj => (hm j hj).1
  rcases hc with ⟨-, he⟩ | ⟨-, -, hrefused, -⟩ | ⟨-, hcount, he⟩
  · rw [he]
    refine .inl ⟨rfl, Plan.pendingAt_landed_of_port (by rw [State.pause_answered]; rfl), ?_⟩
    rw [State.pause_answered]
    exact ⟨hle, fun k hk hdone => hbyte k hk (hdone.imp_right (State.pause_landed_subset _ _ _ ·))⟩
  · exact absurd hadmits hrefused
  · rw [he]
    exact .inr ⟨rfl, rfl, rfl, fun k hk => hbyte k hk (.inl (Nat.le_antisymm hle hcount))⟩

/-- What is pending while the limb is in flight is its carry store, and then the store has not been answered. -/
theorem LimbInFlight.pending {q : Pending} (h : LimbInFlight w d s) (hq : s.port = some q) :
    s.answered = 0 ∧ q = ⟨uaddcCarryStore w d, s.landed⟩ := by
  obtain ⟨-, hport, -⟩ := h
  rw [hport, Plan.pendingAt] at hq
  split at hq <;> cases hq
  exact ⟨Nat.lt_one_iff.1 ‹_›, rfl⟩

/-- A byte of the carry store that lands is written, and the others stay. -/
theorem CarryByte.of_landByte {j k : Nat} {landed : List Nat} (hport : s.port = some ⟨uaddcCarryStore w d, landed⟩)
    (hadmits : s.admits d.addr w = true) (hj : j < w.bytes) (hk : k < w.bytes) (hnew : k ∉ landed)
    (h : j ≠ k → CarryByte w d s j) : CarryByte w d (s.landByte k) j := by
  have hbytes := Width.bytes_le w
  refine (State.byteAt_landByte hport hadmits hk hnew _).trans ?_
  by_cases hjk : j = k
  · subst hjk
    exact (if_pos rfl).trans (byteOf_eq _ _).symm
  · exact (if_neg fun heq => hjk (byteAddr_inj d.addr (by omega) (by omega) heq)).trans (h hjk)

theorem LimbInFlight.landByte (k : Nat) (h : LimbInFlight w d s) : LimbInFlight w d (s.landByte k) := by
  rcases s.landByte_cases k with hsame | ⟨q, hq, hadmits, hk, hnew, hport', -⟩
  · rwa [hsame]
  · obtain ⟨hanswered, rfl⟩ := h.pending hq
    obtain ⟨hdesc, hport, hle, hbyte⟩ := h
    refine ⟨(State.landByte_inflight_desc k s).trans hdesc, ?_, ?_⟩ <;> rw [State.landByte_answered]
    · exact Plan.pendingAt_landed_of_port (hport'.trans (Plan.pendingAt_cons k (hq.symm.trans hport)))
    · refine ⟨hle, fun j hj hdone => .of_landByte hq hadmits hj hk hnew fun hne => hbyte j hj (.inr ?_)⟩
      simpa [hanswered, State.landed, hport', hne] using hdone

/-- Another agent's move: a store is elsewhere, and a byte that lands is one of the carry's. -/
theorem LimbInFlight.otherMove (h : LimbInFlight w d s) (ho : s.otherMove = some t)
    (halone : LeavesAlone d.addr w.bytes s.agenda) : LimbInFlight w d t := by
  rcases State.otherMove_cases ho with
    ⟨D, rest, -, rfl⟩ | ⟨rest, -, rfl⟩ | ⟨size, A, v, rest, he, rfl⟩ | ⟨k, rest, -, rfl⟩ | ⟨rest, he, rfl⟩
  · exact h
  · exact h
  · obtain ⟨hdesc, hport, hle, hbyte⟩ := h
    refine ⟨hdesc, hport, hle, fun k hk hdone => (State.byteAt_otherWrite_outside _ v ?_).trans (hbyte k hk hdone)⟩
    exact halone.untouched ⟨k, hk, rfl⟩ size A v (by simp [he])
  · have hrest : LimbInFlight w d { s with agenda := rest } := h
    exact hrest.landByte k
  · exact absurd (by simp [he]) halone.no_reset

theorem LimbInFlight.busy (h : LimbInFlight w d s) : s.inflight ≠ none := fun hidle => by simp [LimbInFlight, hidle] at h

/-- A step of OCA in which a limb's plan runs changes the carry cell alone. -/
theorem ChangesOnly.of_limb_run {u : State} (h : step s = .next (u.runPlan (uaddcPlan w d))) (hmem : u.mem = s.mem) :
    ChangesOnly (inBytes d.addr w.bytes) s (u.runPlan (uaddcPlan w d)) :=
  .of_step h fun _ hx _ =>
    (State.byteAt_runPlan_outside (mt (uaddcPlan_writes w d _).1 hx)).trans (State.byteAt_congr hmem _)

section Issue
variable {D : BitVec 264} (hplan : planOfDescriptor d = uaddcPlan w d)

/-- While OCA is quiet and does not accept, the step is another agent's move. -/
theorem Quiet.step_not_accepting (h : Quiet s) (haccepts : s.acceptsNext = false) (hstep : step (s.offer D) = .next t)
    (hreset : Move.reset ∉ s.agenda) : Quiet t ∧ ChangesOnly (fun _ => False) s t := by
  have ho : s.otherMove ≠ none := fun hnone => by
    obtain ⟨hidle, -⟩ := h
    simp [State.acceptsNext_iff.2 ⟨hidle, hnone⟩] at haccepts
  obtain ⟨u, hu⟩ := Option.ne_none_iff_exists'.1 (mt State.offer_otherMove_none.1 ho)
  rw [step_other hu] at hstep
  cases hstep
  exact (Quiet.otherMove (s := s.offer D) h hu hreset).imp_right .of_offer

include hplan

/-- The step that accepts the limb carries it on from its beginning. -/
theorem step_accepts_limb (hd : Descriptor.ofBits D = d) (haccepts : s.acceptsNext = true)
    (hstep : step (s.offer D) = .next t) (hadmits : s.admits d.addr w = true) :
    (LimbInFlight w d t ∨ (t.inflight = none ∧ LimbEnded w d t)) ∧ ChangesOnly (inBytes d.addr w.bytes) s t := by
  have hrun := step_offer_accept (D := D) haccepts
  rw [hstep, hd, hplan] at hrun
  cases hrun
  have hbegins : CarryStands w d (s.accept D).answered (s.accept D) := by simp [CarryStands]
  exact ⟨hbegins.runPlan hadmits, (ChangesOnly.of_limb_run hstep rfl).of_offer⟩

/-- In flight, the limb stays so or ends with every step, and changes its carry cell alone. -/
theorem LimbInFlight.step (h : LimbInFlight w d s) (hstep : step s = .next t) (hadmits : s.admits d.addr w = true)
    (halone : LeavesAlone d.addr w.bytes s.agenda) :
    (LimbInFlight w d t ∨ (t.inflight = none ∧ LimbEnded w d t)) ∧ ChangesOnly (inBytes d.addr w.bytes) s t := by
  cases ho : s.otherMove with
  | some u =>
    rw [step_other ho] at hstep
    cases hstep
    refine ⟨.inl (h.otherMove ho halone), .of_otherMove ho halone.no_reset fun q hq x hx => ?_⟩
    obtain ⟨-, rfl⟩ := h.pending hq
    exact hx
  | none =>
    obtain ⟨hdesc, -, hstands⟩ := h
    obtain ⟨f, hf, rfl⟩ := Option.map_eq_some_iff.1 hdesc
    have hrun := step_busy hf ho
    rw [hstep, hplan] at hrun
    cases hrun
    exact ⟨hstands.runPlan hadmits, .of_limb_run hstep rfl⟩

/-- The issue of a limb from where OCA is quiet: the host gets the limb's sum, its carry stands in the cell, and besides the
cell only the bytes of other agents' stores have changed. -/
theorem issue_limb (hd : Descriptor.ofBits D = d) (hquiet : Quiet s) (hadmits : s.admits d.addr w = true)
    (halone : LeavesAlone d.addr w.bytes s.agenda) :
    ∃ t, Quiet t ∧ (∀ k, k < w.bytes → CarryByte w d t k) ∧ ChangesOnly (inBytes d.addr w.bytes) s t ∧
      issue D s = .responded t (uaddcPlan w d).final := by
  have hends := issue_ends (D := D) (s := s)
    (Wait := fun u => Quiet u ∧ ChangesOnly (inBytes d.addr w.bytes) s u)
    (Busy := fun u => LimbInFlight w d u ∧ ChangesOnly (inBytes d.addr w.bytes) s u)
    (End := fun u => LimbEnded w d u ∧ ChangesOnly (inBytes d.addr w.bytes) s u)
    (fun u v ⟨hwaits, hsu⟩ hrefuses hstep => by
      obtain ⟨hwaits', huv⟩ := hwaits.step_not_accepting hrefuses hstep (hsu.leavesAlone halone).no_reset
      exact ⟨hwaits', hsu.trans (huv.mono fun _ => False.elim)⟩)
    (fun u v ⟨_, hsu⟩ haccepts hstep => by
      obtain ⟨hgoes, huv⟩ := step_accepts_limb hplan hd haccepts hstep ((hsu.admits _ _).trans hadmits)
      exact hgoes.imp (⟨·, hsu.trans huv⟩) fun ⟨hidle, hend⟩ => ⟨hidle, hend, hsu.trans huv⟩)
    (fun u ⟨hlimb, _⟩ => hlimb.busy)
    (fun u v ⟨hlimb, hsu⟩ hstep => by
      obtain ⟨hgoes, huv⟩ := hlimb.step hplan hstep ((hsu.admits _ _).trans hadmits) (hsu.leavesAlone halone)
      exact hgoes.imp (⟨·, hsu.trans huv⟩) fun ⟨hidle, hend⟩ => ⟨hidle, hend, hsu.trans huv⟩)
    ⟨hquiet, .refl _ s⟩
  obtain ⟨t, hidle, ⟨⟨hport, hresponse, hcarry⟩, hchanges⟩, hissue⟩ := hends
  exact ⟨t.takeResponse, ⟨hidle, hport⟩, hcarry, hchanges.takeResponse, by rw [hissue, ended, hresponse]⟩

end Issue

end Limb

/-! ### The host's chain (spec/42_uaddc_carry.md R150, R151) -/

/-- The descriptor of UADDC.W of each width, and its plan; only the code is the width's own. -/
theorem uaddc_descriptor (w : Width) :
    ∃ cmd, ∀ a b c addr, (Instr.uaddc w a b c addr).descriptor = ⟨cmd, a, b, c, addr⟩ ∧
      planOfDescriptor ⟨cmd, a, b, c, addr⟩ = uaddcPlan w ⟨cmd, a, b, c, addr⟩ := by
  obtain ⟨cmd, hplan⟩ := planOf_uaddc w
  refine ⟨cmd, fun a b c addr => ?_⟩
  have hdesc : (Instr.uaddc w a b c addr).descriptor = ⟨cmd, a, b, c, addr⟩ := by rw [← planOf_desc, hplan, uaddcPlan]
  exact ⟨hdesc, by rw [← hdesc, planOfDescriptor, decode_descriptor, hdesc, ← hplan]⟩

theorem ovfValue_toNat (ovf : Bool) : (ovfValue ovf).toNat = ovf.toNat := by cases ovf <;> rfl

theorem carryIn_ovfValue (ovf : Bool) : carryIn (ovfValue ovf) = ovf := by cases ovf <;> rfl

/-- The pair of limbs that a pair of slots gives: the low `W` bits of each (R73). -/
def limbOf (w : Width) (slots : Slot × Slot) : BitVec w.bits × BitVec w.bits := (lowBits w slots.1, lowBits w slots.2)

/-- The carry read back from a cell in which the whole carry stands. -/
theorem memRead_carry {w : Width} {d : Descriptor} {s : State} (h : ∀ k, k < w.bytes → CarryByte w d s k) :
    s.memRead d.addr w.bytes = ovfValue (uaddcResult w d.a d.b d.c).2 := by
  have hread := State.memRead_toNat h
  apply BitVec.eq_of_toNat_eq
  have hone := (uaddcResult w d.a d.b d.c).2.toNat_lt
  have hlt : 1 < 2 ^ (8 * w.bytes) := by cases w <;> decide
  rw [hread, uaddcCarryStore, ovfValue_toNat, Nat.mod_eq_of_lt (by omega)]

section Chain
variable {w : Width} {P : Addr} {s : State}

/-- One limb of the host's chain: the host gets the limb's sum and goes on, from where OCA is quiet again, with the limb's
carry-out. -/
theorem hostChain_cons (x y cin : Slot) (hquiet : Quiet s) (hadmits : s.admits P w = true)
    (halone : LeavesAlone P w.bytes s.agenda) :
    ∃ u, Quiet u ∧ ChangesOnly (inBytes P w.bytes) s u ∧ ∀ rest,
      hostChain w P ((x, y) :: rest) cin s =
        (hostChain w P rest (ovfValue (uaddcResult w x y cin).2) u).map
          fun (vs, c, t) => ((uaddcResult w x y cin).1.setWidth 64 :: vs, c, t) := by
  obtain ⟨cmd, hdescriptor⟩ := uaddc_descriptor w
  obtain ⟨hdesc, hplan⟩ := hdescriptor x y cin P
  have hd : Descriptor.ofBits (encode (Instr.uaddc w x y cin P)) = ⟨cmd, x, y, cin, P⟩ := by
    rw [encode, Descriptor.ofBits_toBits, hdesc]
  obtain ⟨t, hidle, hcarry, hst, hissue⟩ := issue_limb hplan hd hquiet hadmits halone
  have haloneAfter := hst.leavesAlone halone
  obtain ⟨hquietAfter, htu⟩ := hidle.beforeHost haloneAfter.no_reset
  refine ⟨t.beforeHost, hquietAfter, hst.trans (htu.mono fun _ => False.elim), fun rest => ?_⟩
  have hread : t.beforeHost.memRead P w.bytes = ovfValue (uaddcResult w x y cin).2 :=
    memRead_carry (d := ⟨cmd, x, y, cin, P⟩) fun k hk =>
      (htu.byteAt _ id (haloneAfter.untouched ⟨k, hk, rfl⟩)).trans (hcarry k hk)
  rw [← hread]
  simp [hostChain, hissue, uaddcPlan]

/-- The host's chain gives the sums and the last carry of the pure chain over the low `W` bits of the slots (R150), the carry
as the number 0 or 1 once a limb has stored it. -/
theorem hostChain_eq_chain (limbs : List (Slot × Slot)) (cin : Slot) (hquiet : Quiet s) (hadmits : s.admits P w = true)
    (halone : LeavesAlone P w.bytes s.agenda) :
    ∃ t, ChangesOnly (inBytes P w.bytes) s t ∧
      hostChain w P limbs cin s = some
        ((chain (limbs.map (limbOf w)) (carryIn cin)).1.map (·.setWidth 64),
          if limbs = [] then cin else ovfValue (chain (limbs.map (limbOf w)) (carryIn cin)).2, t) := by
  induction limbs generalizing cin s with
  | nil => exact ⟨s, .refl _ s, rfl⟩
  | cons limb rest ih =>
    obtain ⟨x, y⟩ := limb
    obtain ⟨u, hquiet', hsu, hcons⟩ := hostChain_cons x y cin hquiet hadmits halone
    obtain ⟨t, hut, hrest⟩ := ih (ovfValue (uaddcResult w x y cin).2) hquiet' ((hsu.admits P w).trans hadmits)
      (hsu.leavesAlone halone)
    refine ⟨t, hsu.trans hut, ?_⟩
    rw [hcons, hrest, carryIn_ovfValue]
    cases rest <;> rfl

end Chain

theorem slotsValue_eq_limbsValue (w : Width) (slots : List Slot) :
    slotsValue w slots = limbsValue (slots.map (lowBits w)) := by
  induction slots with
  | nil => rfl
  | cons x xs ih => simp [slotsValue, limbsValue, ih, lowBits]

/-- Slots that hold `W`-bit limbs stand for the number of the limbs. -/
theorem slotsValue_setWidth (w : Width) (limbs : List (BitVec w.bits)) :
    slotsValue w (limbs.map (·.setWidth 64)) = limbsValue limbs := by
  have hbits : w.bits ≤ 64 := by cases w <;> decide
  induction limbs with
  | nil => rfl
  | cons x xs ih => simp [slotsValue, limbsValue, ih, BitVec.toNat_setWidth_of_le hbits, Nat.mod_eq_of_lt x.isLt]

/-- Settles O22: what the host gets is the pure chain over the low bits of the slots, and the law of that chain is O7. -/
theorem hostChainAddsWide : Obligations.HostChainAddsWide := by
  intro w P limbs cin s hne hidle hport hadmits halone
  have hbits : w.bits ≤ 64 := by cases w <;> decide
  obtain ⟨t, hchanges, hchain⟩ := hostChain_eq_chain limbs cin ⟨hidle, hport⟩ hadmits halone
  obtain ⟨hlength, hlaw⟩ := carryChainLaw w (limbs.map (limbOf w)) (carryIn cin)
  rw [if_neg hne] at hchain
  refine ⟨_, _, t, hchain, by simpa using hlength, fun v hv => ?_, ?_, ?_, hchanges.byteAt⟩
  · obtain ⟨sum, -, rfl⟩ := List.mem_map.1 hv
    rw [BitVec.toNat_setWidth_of_le hbits]
    exact sum.isLt
  · rw [ovfValue_toNat]
    exact Bool.toNat_le _
  · rw [slotsValue_setWidth, ovfValue_toNat, slotsValue_eq_limbsValue, slotsValue_eq_limbsValue, ← carryIn_toNat]
    simpa [limbOf, Function.comp_def] using hlaw

end Sys2Proof.Machine
end

section
/-! PROOFS. The family 43_zfill.md: the whole effect of ZFILL (O24), its fault (O25), length zero (O26), read-back and
idempotence (O27). What the first `n` of its byte stores leave in memory is said once, by induction on `n`; each statement
reads it off the state in which the run ends. -/

namespace Sys2Proof.Machine

/-! ### A region filled with zero (spec/43_zfill.md R160, R163) -/

/-- The `n` bytes from `A` are written, with zero, and what is listed at any other address is as it was. -/
def ZeroFilled (A : Addr) (n : Nat) (s t : State) : Prop :=
  ∀ x : Addr,
    (inBytes A n x → t.mem.lookup x.toNat = some 0) ∧ (¬inBytes A n x → t.mem.lookup x.toNat = s.mem.lookup x.toNat)

theorem inBytes_succ (A : Addr) (n : Nat) (x : Addr) : inBytes A (n + 1) x ↔ inBytes A n x ∨ x = byteAddr A n :=
  Nat.exists_lt_succ_right

section ZeroFilled
variable {A : Addr} {n : Nat} {s t u : State}

theorem ZeroFilled.byteAt_inside (h : ZeroFilled A n s t) {x : Addr} (hx : inBytes A n x) : t.byteAt x = 0 := by
  rw [State.byteAt, (h x).1 hx, Option.getD_some]

theorem ZeroFilled.byteAt_outside (h : ZeroFilled A n s t) {x : Addr} (hx : ¬inBytes A n x) :
    t.byteAt x = s.byteAt x := by
  rw [State.byteAt, (h x).2 hx, State.byteAt]

/-- One more byte of zero after a region filled with zero. -/
theorem ZeroFilled.succ (h : ZeroFilled A n s t)
    (hmem : u.mem = t.mem.write (byteAddr A n).toNat 0) : ZeroFilled A (n + 1) s u := by
  intro x
  simp only [hmem, Memory.lookup_write, inBytes_succ, BitVec.toNat_inj]
  by_cases hx : x = byteAddr A n
  · simp [hx]
  · simpa [hx] using h x

/-- A region already filled is listed as zero, so filling it again lists nothing new. -/
theorem ZeroFilled.again (h : ZeroFilled A n s t) (hagain : ZeroFilled A n t u) (x : Addr) :
    u.mem.lookup x.toNat = t.mem.lookup x.toNat := by
  by_cases hx : inBytes A n x
  · rw [(h x).1 hx, (hagain x).1 hx]
  · exact (hagain x).2 hx

end ZeroFilled

/-- Canonical memories that list the same byte at every address are the same data. -/
theorem Memory.ext_of_addresses {m m' : Memory} (h : m.wf = true) (h' : m'.wf = true)
    (e : ∀ x : Addr, m.lookup x.toNat = m'.lookup x.toNat) : m = m' := by
  refine Memory.ext_of_wf h h' fun a => ?_
  by_cases ha : a < 2 ^ 64
  · have hx := e (BitVec.ofNat 64 a)
    rwa [BitVec.toNat_ofNat, Nat.mod_eq_of_lt ha] at hx
  · rw [Memory.lookup_none_above h (Nat.not_lt.1 ha), Memory.lookup_none_above h' (Nat.not_lt.1 ha)]

/-! ### The byte stores of ZFILL (spec/43_zfill.md R160, R162) -/

/-- Each transaction of ZFILL writes one byte, zero, at its place in the region. -/
theorem State.perform_zfill_mem {s : State} (d : Descriptor) (k : Nat) (hlanded : s.landed = []) :
    (s.perform ((zfillPlan d).txn k)).mem = s.mem.write (byteAddr d.addr k).toNat 0 := by
  rw [State.perform_mem, hlanded]
  simp [zfillPlan, Memory.storeBytes, Width.bytes, byteOf]

/-- The first `n` transactions of ZFILL fill the first `n` bytes of its region. -/
theorem zfillPlan_performed_zeroFilled (d : Descriptor) (n : Nat) {s : State} (hlanded : s.landed = []) :
    ZeroFilled d.addr n s ((zfillPlan d).performed 0 n s) := by
  induction n with
  | zero => exact fun x => ⟨fun ⟨_, hk, _⟩ => absurd hk (Nat.not_lt_zero _), fun _ => rfl⟩
  | succ n ih =>
    rw [Plan.performed_succ, Nat.zero_add]
    exact ih.succ (State.perform_zfill_mem d n (Plan.performed_landed hlanded))

/-! ### What stands around a run (spec/60_exceptions.md R171, R175) -/

/-- An OK response after any number of transactions changes nothing around OCA. -/
theorem Plan.performed_respond_sameAround (p : Plan) (k m : Nat) (s : State) (v : BitVec 64) (e : Byte) :
    SameAround s ((p.performed k m s).respond ⟨.ok, v, e⟩) := by
  obtain ⟨-, hrequest, -, hrefusing, hcodes, hdraws, hagenda, hseen⟩ := p.performed_frame k m s
  exact ⟨hrequest, hrefusing, hcodes, hdraws, hagenda, (Bool.or_false _).trans hseen⟩

/-- A memory fault after any number of transactions is one raised from where they began. -/
theorem Plan.performed_raiseMemFault_faulted (p : Plan) (k m : Nat) (s : State) (A : Addr) :
    Faulted s ((p.performed k m s).raiseMemFault A) A := by
  obtain ⟨-, hrequest, -, hrefusing, -, -, hagenda, -⟩ := p.performed_frame k m s
  obtain ⟨hresponded, hrequest', hrefusing', hagenda'⟩ := State.raiseMemFault_faulted A (p.performed k m s)
  rw [Plan.performed_nextCode] at hresponded
  exact ⟨hresponded, hrequest'.trans hrequest, hrefusing'.trans hrefusing, hagenda'.trans hagenda⟩

section SameAround
variable {s t : State} (h : SameAround s t)
include h

theorem SameAround.admits (A : Addr) (n : Width) : t.admits A n = s.admits A n := by
  obtain ⟨-, hrefusing, -⟩ := h
  simp [State.admits, hrefusing]

/-- After the response of an undisturbed command another one can begin undisturbed. -/
theorem SameAround.begins {r : Response} (hbegins : s.Begins) (hresponded : Responded t r) : t.Begins := by
  obtain ⟨-, -, hquota⟩ := hbegins
  obtain ⟨hidle, hport, -⟩ := hresponded
  obtain ⟨-, -, -, -, hagenda, -⟩ := h
  refine ⟨by simp [State.answered, hidle], by simp [State.landed, hport], ?_⟩
  rwa [State.quota, hagenda]

end SameAround

/-! ### The runs of ZFILL (spec/43_zfill.md R161, R164, R165) -/

section Runs
variable {s : State} {d : Descriptor} (hbegins : s.Begins)
include hbegins

theorem State.runPlan_zfill_completes (hadmits : ∀ x, inBytes d.addr d.a.toNat x → s.admits x .w8 = true) :
    s.runPlan (zfillPlan d) = ((zfillPlan d).performed 0 d.a.toNat s).respond ⟨.ok, d.addr, 0⟩ :=
  State.runPlan_completes hbegins fun k hk => hadmits _ ⟨k, hk, rfl⟩

theorem State.runPlan_zfill_refused {i : Nat} (hi : i < d.a.toNat)
    (hadmits : ∀ j, j < i → s.admits (byteAddr d.addr j) .w8 = true)
    (hrefused : s.admits (byteAddr d.addr i) .w8 = false) :
    s.runPlan (zfillPlan d) = ((zfillPlan d).performed 0 i s).raiseMemFault (byteAddr d.addr i) :=
  State.runPlan_faults (p := zfillPlan d) hbegins hi hadmits (ne_true_of_eq_false hrefused)

end Runs

/-- A fault-free ZFILL fills its region, keeps memory canonical and responds OK with its address. -/
theorem exec_zfill_admitted {a addr : BitVec 64} (b c : Slot) {s : State} (hbegins : s.Begins)
    (hadmits : ∀ x, inBytes addr a.toNat x → s.admits x .w8 = true) :
    ∃ t, exec (.zfill a b c addr) s = .next t ∧ ZeroFilled addr a.toNat s t ∧ (s.mem.wf = true → t.mem.wf = true) ∧
      Responded t ⟨.ok, addr, 0⟩ ∧ SameAround s t := by
  refine ⟨_, exec_eq_runPlan _ s, ?_⟩
  rw [planOf, State.runPlan_zfill_completes hbegins hadmits]
  exact ⟨zfillPlan_performed_zeroFilled ⟨0x30, a, b, c, addr⟩ a.toNat hbegins.landed_nil,
    Plan.performed_wf a.toNat, ⟨rfl, rfl, rfl⟩, Plan.performed_respond_sameAround _ 0 a.toNat s addr 0⟩

/-- Settles O24. -/
theorem zfillWholeEffect : Obligations.ZfillWholeEffect := by
  intro a b c addr s hbegins hadmits
  obtain ⟨t, hexec, hfilled, -, hresponded, haround⟩ := exec_zfill_admitted b c hbegins hadmits
  exact ⟨t, hexec, fun _ => hfilled.byteAt_inside, fun _ => hfilled.byteAt_outside, hresponded, haround⟩

/-- Settles O25: the run ends after the `i` stores before the refused one, and the fault itself changes no byte. -/
theorem zfillStopsAtFirstRefusal : Obligations.ZfillStopsAtFirstRefusal := by
  intro a b c addr s i hbegins hi hadmits hrefused
  refine ⟨_, exec_eq_runPlan _ s, ?_⟩
  rw [planOf, State.runPlan_zfill_refused hbegins hi hadmits hrefused]
  have hfilled := zfillPlan_performed_zeroFilled ⟨0x30, a, b, c, addr⟩ i hbegins.landed_nil
  simp only [State.byteAt_raiseMemFault]
  exact ⟨fun _ => hfilled.byteAt_inside, fun _ => hfilled.byteAt_outside,
    Plan.performed_raiseMemFault_faulted _ 0 i s (byteAddr addr i)⟩

/-- Settles O26: no byte is in the region, so nothing is asked of the memory subsystem, and no transaction is performed. -/
theorem zfillLengthZero : Obligations.ZfillLengthZero := by
  intro b c addr s hbegins
  refine ⟨_, exec_eq_runPlan _ s, ?_⟩
  rw [planOf, State.runPlan_zfill_completes hbegins fun x ⟨_, hk, _⟩ => absurd hk (Nat.not_lt_zero _)]
  exact ⟨rfl, ⟨rfl, rfl, rfl⟩, Plan.performed_respond_sameAround _ 0 0 s addr 0⟩

/-- Settles O27: the first run leaves all that the second needs, and the second lists nothing new. -/
theorem zfillIdempotent : Obligations.ZfillIdempotent := by
  intro a b c addr s hbegins hadmits
  obtain ⟨t, hexec, hfilled, hwf, hresponded, haround⟩ := exec_zfill_admitted b c hbegins hadmits
  obtain ⟨u, hexec', hfilled', hwf', hresponded', -⟩ := exec_zfill_admitted b c (haround.begins hbegins hresponded)
    fun x hx => (haround.admits x .w8).trans (hadmits x hx)
  have hsame := hfilled.again hfilled'
  obtain ⟨-, -, hresponse⟩ := hresponded
  obtain ⟨-, -, hresponse'⟩ := hresponded'
  refine ⟨t, u, hexec, hexec', fun k hk => hfilled.byteAt_inside ⟨k, hk, rfl⟩, fun x => ?_, fun hcanonical => ?_,
    hresponse'.trans hresponse.symm⟩
  · rw [State.byteAt, hsame x, State.byteAt]
  · exact Memory.ext_of_addresses (hwf' (hwf hcanonical)) (hwf hcanonical) hsame

end Sys2Proof.Machine
end

section
/-! PROOFS. The family 60_exceptions.md: the first refused transaction is the one reported (O30), the same command issued again
after its fault (O34), the response to a reserved code (O37), and no step that stops OCA (O42). The retry turns on one fact: the
bytes a plan's transactions write do not depend on what stood there before. -/

namespace Sys2Proof.Machine

/-! ### Nothing stops OCA (spec/60_exceptions.md R170, R175) -/

/-- Serving a descriptor always answers a next state, so OCA's own turn does. -/
theorem instanceTurn_next (s : State) : ∃ t, instanceTurn s = .next t := by
  unfold instanceTurn
  split
  · exact ⟨_, serve_eq_runPlan _ s⟩
  · split
    · exact ⟨_, serve_eq_runPlan _ _⟩
    · exact ⟨_, rfl⟩

/-- Settles O42: a step is another agent's move or OCA's own turn. -/
theorem nothingStopsTheMachine : Obligations.NothingStopsTheMachine := by
  intro s
  cases hother : s.otherMove with
  | some t => exact ⟨t, step_other hother⟩
  | none =>
    rw [step_of_otherMove_none hother]
    exact instanceTurn_next s

/-! ### A reserved code (spec/60_exceptions.md R172) -/

/-- The plan of a reserved code has no transaction to wait for: undisturbed, it responds at once. -/
theorem State.runPlan_illegalPlan {s : State} (d : Descriptor) (hquota : s.quota = none) :
    s.runPlan (illegalPlan d) = s.respond (illegalResponse d.cmd) := by
  rw [State.runPlan_of_quota_none hquota]
  exact State.finish_of_last (Nat.zero_le _)

/-- Settles O37: the descriptor is accepted, its plan responds ILL at once, and ILL sets no fault mark. -/
theorem reservedCodeRespondsIll : Obligations.ReservedCodeRespondsIll := by
  intro s D hagenda hidle hrequest hreserved
  have hquota : (s.accept D).quota = none := by simp [State.quota, hagenda]
  rw [step_accept hidle hrequest (State.otherMove_none (.inl hagenda)), planOfDescriptor_reserved hreserved,
    State.runPlan_illegalPlan _ hquota]
  simp [State.respond, State.accept, illegalResponse]

/-! ### The first refusal (spec/60_exceptions.md R171, R174) -/

/-- Settles O30: the transactions before the refused one are performed, and the fault itself changes no byte. -/
theorem firstRefusalIsReported : Obligations.FirstRefusalIsReported := by
  intro i s k hbegins hk hadmits hrefused
  refine ⟨_, exec_eq_runPlan i s, ?_⟩
  rw [State.runPlan_faults hbegins hk hadmits hrefused]
  refine ⟨State.raiseMemFault_mem _ _, fun x hx => ?_, Plan.performed_raiseMemFault_faulted _ 0 k s _⟩
  rw [State.byteAt_raiseMemFault]
  exact Plan.byteAt_performed_outside fun j hj => by simpa using hx j hj

/-! ### The same command issued again (spec/60_exceptions.md R175, R176) -/

/-- OCA is IDLE after a fault exactly as after an OK response, so another command can begin undisturbed (R175). -/
theorem Faulted.begins {s t : State} {A : Addr} (h : Faulted s t A) (hbegins : s.Begins) : t.Begins := by
  obtain ⟨-, -, hquota⟩ := hbegins
  obtain ⟨⟨hidle, hport, -⟩, -, -, hagenda⟩ := h
  refine ⟨by simp [State.answered, hidle], by simp [State.landed, hport], ?_⟩
  rwa [State.quota, hagenda]

/-- Where no byte is taken ahead, a byte of the transaction is written whatever stood there, and any other keeps its value. -/
theorem State.byteAt_perform_congr {s t : State} {q : Txn} {x : Addr} (hs : s.landed = []) (ht : t.landed = [])
    (h : inBytes q.addr q.size.bytes x ∨ t.byteAt x = s.byteAt x) : (t.perform q).byteAt x = (s.perform q).byteAt x := by
  have hsize := Width.bytes_le q.size
  rw [inBytes_iff _ _ (by omega)] at h
  rw [State.byteAt_perform, State.byteAt_perform, hs, ht]
  rcases h with hin | hsame
  · rw [if_pos ⟨hin, List.not_mem_nil⟩, if_pos ⟨hin, List.not_mem_nil⟩]
  · rw [hsame]

/-- A byte that one of the transactions writes, or that reads alike before them, reads alike after them. -/
theorem Plan.byteAt_performed_congr {p : Plan} {k m : Nat} {s t : State} {x : Addr} (hs : s.landed = [])
    (ht : t.landed = [])
    (h : (∃ j, j < m ∧ inBytes (p.txn (k + j)).addr (p.txn (k + j)).size.bytes x) ∨ t.byteAt x = s.byteAt x) :
    (p.performed k m t).byteAt x = (p.performed k m s).byteAt x := by
  induction m with
  | zero => exact h.resolve_left fun ⟨_, hj, _⟩ => absurd hj (Nat.not_lt_zero _)
  | succ m ih =>
    rw [Nat.exists_lt_succ_right, or_right_comm] at h
    exact State.byteAt_perform_congr (Plan.performed_landed hs) (Plan.performed_landed ht) (h.symm.imp_right ih)

/-- Run again where its first `k` transactions have been performed, a plan leaves every byte as if they had not been. -/
theorem Plan.byteAt_performed_again {p : Plan} {k m : Nat} {s t : State} (hk : k ≤ m) (hs : s.landed = [])
    (ht : t.landed = []) (h : ∀ x, t.byteAt x = (p.performed 0 k s).byteAt x) (x : Addr) :
    (p.performed 0 m t).byteAt x = (p.performed 0 m s).byteAt x := by
  refine Plan.byteAt_performed_congr hs ht ?_
  by_cases hwritten : ∃ j, j < k ∧ inBytes (p.txn (0 + j)).addr (p.txn (0 + j)).size.bytes x
  · obtain ⟨j, hj, hin⟩ := hwritten
    exact .inl ⟨j, by omega, hin⟩
  · refine .inr ?_
    rw [h, Plan.byteAt_performed_outside fun j hj hin => hwritten ⟨j, hj, hin⟩]

/-- Settles O34: both runs under the changed `admit` complete, and the retry writes again what the first attempt had written. -/
theorem retryAfterFaultSucceeds : Obligations.RetryAfterFaultSucceeds := by
  intro i s k R hbegins hk hadmits hrefused hall
  obtain ⟨t, hexec, hmem, -, hfaulted⟩ := firstRefusalIsReported i s k hbegins hk hadmits hrefused
  have hretry : State.Begins { t with refusing := R } := hfaulted.begins hbegins
  have hfresh : State.Begins { s with refusing := R } := hbegins
  refine ⟨t, _, _, hexec, exec_eq_runPlan i _, exec_eq_runPlan i _, ?_⟩
  rw [State.runPlan_completes hretry hall, State.runPlan_completes hfresh hall]
  refine ⟨rfl, Plan.byteAt_performed_again hk.le hfresh.landed_nil hretry.landed_nil fun x => ?_⟩
  have hfaultMem : t.byteAt x = ((planOf i).performed 0 k s).byteAt x := State.byteAt_congr hmem x
  exact hfaultMem.trans (Plan.byteAt_performed_congr hfresh.landed_nil hbegins.landed_nil (.inr rfl))

end Sys2Proof.Machine
end

section
/-! PROOFS. The family 70_reset_and_hazards.md: an undisturbed instance with work responds (O40), and what reset does to a
command in flight (O48). -/

namespace Sys2Proof.Machine

/-! ### Liveness (spec/70_reset_and_hazards.md R209) -/

/-- A command whose turn is not limited runs to its response. -/
theorem State.runPlan_responds {p : Plan} {s : State} (h : s.quota = none) : ∃ r, Responded (s.runPlan p) r := by
  rcases s.runPlan_ends p with ⟨hturn, -⟩ | ⟨hidle, hport, r, hresponse, -⟩
  · simp [h] at hturn
  · exact ⟨r, hidle, hport, hresponse⟩

/-- Settles O40: the step runs the plan of the command in flight, or of the one it accepts, and an empty agenda limits no
turn. -/
theorem undisturbedInstanceResponds : Obligations.UndisturbedInstanceResponds := by
  intro s hagenda hwork
  have hmoves : s.otherMove = none := State.otherMove_none (.inl hagenda)
  have hquota : s.quota = none := by simp [State.quota, hagenda]
  cases hinflight : s.inflight with
  | some f =>
    obtain ⟨r, hr⟩ := State.runPlan_responds hquota
    exact ⟨_, r, step_busy hinflight hmoves, hr⟩
  | none =>
    obtain ⟨D, hrequest⟩ := Option.ne_none_iff_exists'.1 (hwork.resolve_left (· hinflight))
    have hquota' : (s.accept D).quota = none := hquota
    obtain ⟨r, hr⟩ := State.runPlan_responds hquota'
    exact ⟨_, r, step_accept hinflight hrequest hmoves, hr⟩

/-! ### Reset (spec/70_reset_and_hazards.md R200, R201) -/

theorem State.settlePort_of_port_none {s : State} (hport : s.port = none) : s.settlePort = s := by
  simp [State.settlePort, hport]

section UnansweredStore
variable {s : State} {p : Pending} (hport : s.port = some p)
include hport

theorem State.settlePort_refused (h : s.admits p.txn.addr p.txn.size = false) : s.settlePort = s := by
  simp [State.settlePort, hport, h]

theorem State.settlePort_admitted (h : s.admits p.txn.addr p.txn.size = true) :
    s.settlePort =
      { s with
        mem := Memory.landBytes p.landed p.txn.addr p.txn.value s.draws p.txn.size.bytes s.mem
        draws := s.draws + p.txn.size.bytes } := by
  simp [State.settlePort, hport, h]

end UnansweredStore

/-- Reset leaves a byte as it was, or with what the admitted transaction awaiting its answer would have written there. -/
theorem State.byteAt_settlePort (s : State) (x : Addr) :
    s.settlePort.byteAt x = s.byteAt x ∨
      ∃ p, s.port = some p ∧ s.admits p.txn.addr p.txn.size = true ∧
        ∃ k, k < p.txn.size.bytes ∧ x = byteAddr p.txn.addr k ∧
          s.settlePort.byteAt x = BitVec.ofNat 8 (p.txn.value.toNat / 256 ^ k) := by
  cases hport : s.port with
  | none => exact .inl (by rw [State.settlePort_of_port_none hport])
  | some p =>
    cases hadmits : s.admits p.txn.addr p.txn.size with
    | false => exact .inl (by rw [State.settlePort_refused hport hadmits])
    | true =>
      rw [State.settlePort_admitted hport hadmits]
      simp only [State.byteAt]
      rcases Memory.lookup_landBytes s.mem p.landed p.txn.addr p.txn.value s.draws p.txn.size.bytes x with
        hkept | ⟨k, hk, hx, htaken⟩
      · exact .inl (by rw [hkept])
      · exact .inr ⟨p, rfl, hadmits, k, hk, hx, by rw [htaken, Option.getD_some, byteOf_eq]⟩

/-- Where reset is at the head of the agenda, the step is the reset input. -/
theorem step_reset {s : State} {rest : List Move} (h : s.agenda = .reset :: rest) :
    step s = .next (State.resetInput { s with agenda := rest }) :=
  step_other (by simp [State.otherMove, h])

/-- Settles O48: of what stands around the instance and in memory, reset touches only the transaction awaiting its answer. -/
theorem resetAbandonsCommand : Obligations.ResetAbandonsCommand := by
  intro s rest hagenda
  refine ⟨_, step_reset hagenda, State.resetInput_inflight _, State.resetInput_port _, State.resetInput_response _,
    State.resetInput_request _, State.resetInput_refusing _, State.resetInput_codes _, State.resetInput_agenda _,
    State.resetInput_faultSeen _, fun x => ?_, fun hport => ?_⟩
  · rw [State.byteAt_congr (State.resetInput_mem _)]
    exact State.byteAt_settlePort { s with agenda := rest } x
  · rw [State.resetInput_mem, State.resetInput_draws,
      State.settlePort_of_port_none (s := { s with agenda := rest }) hport]
    exact ⟨rfl, rfl⟩

end Sys2Proof.Machine
end
